-- ==== Sys2Proof/Word.lean ====
section
/-! DEFINITION. The word types of the block: bytes, byte strings and 16-bit fields (spec/00_scope.md R10). -/

namespace Sys2Proof

/-- R10: a byte is an unsigned integer 0..255. -/
abbrev Byte := BitVec 8

/-- R10: a byte string is a finite list of bytes; index 0 is the first byte received or sent. -/
abbrev Bytes := List Byte

/-- R61: the three frame fields command, status and payloadLength are 16 bits, unsigned. -/
abbrev Half := BitVec 16

end Sys2Proof
end

