-- ==== Sys2Proof/Machine/Operands.lean ====
section
/-! DEFINITION. Operand assembly: indexing, slicing and the big-endian byte order of spec/00_scope.md R10 and R11
(30_encoding.md R76: no operand is sign-extended, scaled or shifted). -/

namespace Sys2Proof.Machine

/-- `s[i]` (R10). The rules read it only for `i < |s|`; outside that range this total function answers 0 and no rule
uses the answer. -/
def byteAt (s : Bytes) (i : Nat) : Byte := s.getD i 0

/-- `s[i..j)` (R10): the bytes `i` to `j-1`, empty when `j <= i`. -/
def slice (s : Bytes) (i j : Nat) : Bytes := (s.drop i).take (j - i)

/-- `be16(hi, lo) = hi * 256 + lo` (R11). -/
def be16 (hi lo : Byte) : Nat := hi.toNat * 256 + lo.toNat

/-- `be24(a, b, c) = a * 65536 + b * 256 + c` (R11). -/
def be24 (a b c : Byte) : Nat := a.toNat * 65536 + b.toNat * 256 + c.toNat

/-- `u16_bytes(v) = [v[15:8], v[7:0]]` (R11). -/
def u16Bytes (v : Nat) : Bytes := [BitVec.ofNat 8 (v / 256), BitVec.ofNat 8 v]

/-- `u24_bytes(v) = [v[23:16], v[15:8], v[7:0]]` (R11). -/
def u24Bytes (v : Nat) : Bytes := [BitVec.ofNat 8 (v / 65536), BitVec.ofNat 8 (v / 256), BitVec.ofNat 8 v]

/-- A 16-bit field from its two bytes (R61, R76). -/
def halfOf (hi lo : Byte) : Half := BitVec.ofNat 16 (be16 hi lo)

end Sys2Proof.Machine
end

