-- ==== Sys2Proof/Config.lean ====
section
/-! DEFINITION. The parameters of spec/00_scope.md R7, each at the value R7 gives for this hardware, and the one
open parameter, `schedule` (R9), as an opaque constant. -/

namespace Sys2Proof.Config

/-- `SOF`: required value of frame byte 0 (R7). -/
def sof : Byte := 0x11
/-- `LRC1_TX`: the value the encoder writes in frame byte 1 (R7, R8). -/
def lrc1Tx : Byte := 0xEF
/-- `HDR`: header length in bytes (R7). -/
def hdr : Nat := 9
/-- `TRL`: trailer length in bytes (R7). -/
def trl : Nat := 1
/-- `CAP`: reassembly buffer capacity in bytes (R7). -/
def cap : Nat := 512
/-- `MAX_PAYLOAD`: largest payload length (R7). -/
def maxPayload : Nat := 65535
/-- `MAX_FRAME` = `HDR + MAX_PAYLOAD + TRL` (R7). -/
def maxFrame : Nat := hdr + maxPayload + trl
/-- `MAX_CHUNK` = `CAP`: largest chunk FEED accepts (R7). -/
def maxChunk : Nat := cap
/-- `MAX_RX_PAYLOAD` = `CAP - HDR - TRL`: largest payloadLength the reassembler can deliver (R7, R142). -/
def maxRxPayload : Nat := cap - hdr - trl
/-- `LEN24_MAX`: largest operand length the request format carries (R7, R68). -/
def len24Max : Nat := 16777215

/-- `schedule` (R9, R50, decision D17): the block's free choice among the requesters that have a request to take,
as a function of how many requests it has taken. OPAQUE: nothing can be proved of its values, so a theorem holds
for every interleaving that keeps each requester's own order. Log entry 4. -/
opaque schedule : Nat → Nat

end Sys2Proof.Config
end

