-- ==== Sys2Proof/Syntax.lean ====
section
/-! DEFINITION. The instructions: the six operations of spec/30_encoding.md R69, one constructor per row of
spec/opcode_table.json. The operand length `N` of a request is the length of the byte string. -/

namespace Sys2Proof

/-- One request of the block (R68, R69), its operands already taken apart. -/
inductive Instr where
  /-- LRC (R108): checksum of `data`. -/
  | lrc (data : Bytes)
  /-- ENCODE (R109): build the frame of `command` and `payload`. -/
  | encode (command : Half) (payload : Bytes)
  /-- DECODE (R110): decode one frame from `data`. -/
  | decode (data : Bytes)
  /-- FEED (R130): append `chunk` to the reassembly buffer and try to complete a frame. -/
  | feed (chunk : Bytes)
  /-- RXRESET (R139): empty the reassembly buffer. -/
  | rxreset
  /-- RXPEEK (R140): read the reassembly buffer. -/
  | rxpeek
deriving DecidableEq, Repr

end Sys2Proof
end

