-- ==== Sys2Proof/WellFormed.lean ====
section
/-! DEFINITION. Which instructions a request can carry: the operand length `N` is a 24-bit field
(spec/30_encoding.md R68: `0 <= N <= LEN24_MAX`). -/

namespace Sys2Proof

/-- R68: the length of a byte-string operand fits the 24-bit field `N`. -/
def operandFits (data : Bytes) : Bool := data.length ≤ Config.len24Max

/-- R68: the instruction can be written as a request. -/
def Instr.wellFormed : Instr → Bool
  | .lrc data => operandFits data
  | .encode _ payload => operandFits payload
  | .decode data => operandFits data
  | .feed chunk => operandFits chunk
  | .rxreset => true
  | .rxpeek => true

end Sys2Proof
end

