-- ==== Sys2Proof/Decode.lean ====
section
/-! DEFINITION. The request decoder of spec/30_encoding.md R67 to R72, total on any byte string and rejecting by
name, and after it the encoder, written from the same formats. -/

namespace Sys2Proof

open Machine (be16 be24 u16Bytes u24Bytes halfOf)

/-- Why a byte string is no request. The block answers with the result code of the same name (R70, R71). -/
inductive RequestError where
  /-- R70: the header byte is illegal. -/
  | illegalOp
  /-- R71: the request is empty, or its length is not its format's fixed part plus `N`. -/
  | malformed
deriving DecidableEq, Repr

/-- The operations of R69. -/
inductive Op where
  | lrc
  | encode
  | decode
  | feed
  | rxreset
  | rxpeek
deriving DecidableEq, Repr

/-- The request formats of R68. -/
inductive Format where
  | reqData
  | reqEnc
  | reqNone
deriving DecidableEq, Repr

/-- Header bits 7:4, `rsv` (R67). -/
def headerRsv (h : Byte) : BitVec 4 := h.extractLsb' 4 4

/-- Header bits 3:0, `op` (R67). -/
def headerOp (h : Byte) : BitVec 4 := h.extractLsb' 0 4

/-- The operation map (R69), none for an illegal header byte (R70). -/
def opOfHeader (h : Byte) : Option Op :=
  if headerRsv h ≠ 0 then none
  else match (headerOp h).toNat with
    | 1 => some .lrc
    | 2 => some .encode
    | 3 => some .decode
    | 4 => some .feed
    | 5 => some .rxreset
    | 6 => some .rxpeek
    | _ => none

/-- The format column of R69. -/
def formatOf : Op → Format
  | .lrc => .reqData
  | .encode => .reqEnc
  | .decode => .reqData
  | .feed => .reqData
  | .rxreset => .reqNone
  | .rxpeek => .reqNone

/-- REQ_DATA after the header (R68, R72): `N` in three bytes, then exactly `N` bytes. -/
def decodeData (body : Bytes) : Except RequestError Bytes :=
  match body with
  | a :: b :: c :: data => if data.length = be24 a b c then .ok data else .error .malformed
  | _ => .error .malformed

/-- REQ_ENC after the header (R68, R72): `command` in two bytes, `N` in three, then exactly `N` bytes. -/
def decodeEnc (body : Bytes) : Except RequestError (Half × Bytes) :=
  match body with
  | hi :: lo :: a :: b :: c :: payload =>
    if payload.length = be24 a b c then .ok (halfOf hi lo, payload) else .error .malformed
  | _ => .error .malformed

/-- REQ_NONE after the header (R68): nothing. -/
def decodeNone (body : Bytes) : Except RequestError Unit :=
  match body with
  | [] => .ok ()
  | _ :: _ => .error .malformed

/-- The operands of an operation, from the bytes after the header. -/
def decodeOperands (op : Op) (body : Bytes) : Except RequestError Instr :=
  match op with
  | .lrc => (decodeData body).map Instr.lrc
  | .encode => (decodeEnc body).map fun p => Instr.encode p.1 p.2
  | .decode => (decodeData body).map Instr.decode
  | .feed => (decodeData body).map Instr.feed
  | .rxreset => (decodeNone body).map fun _ => Instr.rxreset
  | .rxpeek => (decodeNone body).map fun _ => Instr.rxpeek

/-- The request decoder. The checks run in the order of R71 and R163: empty, header, length. -/
def decodeRequest (req : Bytes) : Except RequestError Instr :=
  match req with
  | [] => .error .malformed
  | h :: body =>
    match opOfHeader h with
    | none => .error .illegalOp
    | some op => decodeOperands op body

/-! ## Encoder -/

/-- The header byte of an operation (R69). -/
def headerByte : Op → Byte
  | .lrc => 0x01
  | .encode => 0x02
  | .decode => 0x03
  | .feed => 0x04
  | .rxreset => 0x05
  | .rxpeek => 0x06

/-- A request of format REQ_DATA (R68). -/
def encodeData (op : Op) (data : Bytes) : Bytes := headerByte op :: (u24Bytes data.length ++ data)

/-- A request of format REQ_ENC (R68). -/
def encodeEnc (op : Op) (command : Half) (payload : Bytes) : Bytes :=
  headerByte op :: (u16Bytes command.toNat ++ (u24Bytes payload.length ++ payload))

/-- A request of format REQ_NONE (R68). -/
def encodeNone (op : Op) : Bytes := [headerByte op]

/-- The request of an instruction (R67 to R69). Meant for well-formed instructions: a longer operand's length does
not fit `N`. -/
def encodeRequest : Instr → Bytes
  | .lrc data => encodeData .lrc data
  | .encode command payload => encodeEnc .encode command payload
  | .decode data => encodeData .decode data
  | .feed chunk => encodeData .feed chunk
  | .rxreset => encodeNone .rxreset
  | .rxpeek => encodeNone .rxpeek

/-! ## The table's words

spec/opcode_table.json numbers the bits of a request from the least significant bit of byte 0. -/

/-- The first `k` bytes of the number `w`, byte 0 in its least significant bits. -/
def wordBytes : Nat → Nat → Bytes
  | 0, _ => []
  | k + 1, w => BitVec.ofNat 8 w :: wordBytes k (w / 256)

/-- `bs` followed by zero bytes up to the length `len`. -/
def padTo (len : Nat) (bs : Bytes) : Bytes := bs ++ List.replicate (len - bs.length) 0

/-- A request decoder's way to the total length (R72): the fixed part of the header's format plus `N`, bytes that are
not there counting as 0. For an illegal header, one byte. -/
def requestLength (bs : Bytes) : Nat :=
  match (opOfHeader (bs.getD 0 0)).map formatOf with
  | some .reqData => 4 + be24 (bs.getD 1 0) (bs.getD 2 0) (bs.getD 3 0)
  | some .reqEnc => 6 + be24 (bs.getD 3 0) (bs.getD 4 0) (bs.getD 5 0)
  | some .reqNone => 1
  | none => 1

/-- The request whose bits are `w`, of which the table gives `nbits` in whole bytes; every later bit is 0. -/
def requestOfWord (nbits w : Nat) : Bytes :=
  padTo (requestLength (wordBytes ((nbits + 7) / 8) w)) (wordBytes ((nbits + 7) / 8) w)

/-- The instruction the decoder reads from the request whose bits are `w`; none where it refuses. -/
def decodeTableWord (nbits w : Nat) : Option Instr :=
  match decodeRequest (requestOfWord nbits w) with
  | .ok i => some i
  | .error _ => none

end Sys2Proof
end

