-- ==== Sys2Proof/Machine/Flags.lean ====
section
/-! DEFINITION. The result codes of spec/60_exceptions.md R160 and the flags byte of a FEED response
(30_encoding.md R75). The block has no flags that persist between requests (10_state.md R26). -/

namespace Sys2Proof.Machine

/-- The result codes of R160; each response begins with one (R73). -/
inductive ResultCode where
  | ok
  | frame
  | incomplete
  | badSof
  | lrc2
  | lrc3
  | payloadTooLong
  | chunkTooLong
  | illegalOp
  | malformed
deriving DecidableEq, Repr

/-- The byte of a result code (R160). -/
def codeByte : ResultCode → Byte
  | .ok => 0x00
  | .frame => 0x01
  | .incomplete => 0x02
  | .badSof => 0x10
  | .lrc2 => 0x11
  | .lrc3 => 0x12
  | .payloadTooLong => 0x20
  | .chunkTooLong => 0x21
  | .illegalOp => 0x30
  | .malformed => 0x31

/-- The flags byte `fl` of a FEED response (R75): bit 0 is OVF, bits 7:1 are 0. -/
def flagsByte (ovf : Bool) : Byte := if ovf then 0x01 else 0x00

end Sys2Proof.Machine
end

