-- ==== Sys2Proof/Machine/State.lean ====
section
/-! DEFINITION. The state of the block (spec/10_state.md), as plain data, with its reset (70_reset_and_hazards.md
R180, R181), and the reasons a step can stop. -/

namespace Sys2Proof.Machine

/-- The reassembly buffer's bytes `rx_buf[0..512)` (R23, R40), as (index, byte) cells. An index that is not listed
holds the unspecified value of R180: it has no value in the model (log entry 1). -/
abbrev Memory := List Host.Cell

/-- Every cell stands at an index of `lo .. CAP`, indices strictly rising. -/
def Memory.risingFrom : Nat → Memory → Bool
  | _, [] => true
  | lo, (a, _) :: m => decide (lo ≤ a) && decide (a < Config.cap) && Memory.risingFrom (a + 1) m

/-- The canonical form: indices strictly rising, each inside the buffer. An unlisted index reads as nothing, so no
entry can equal it, and equal buffers are equal lists. -/
def Memory.wf (m : Memory) : Bool := Memory.risingFrom 0 m

/-- The state. `rxLen`, `rxBuf`, `responsePort` and `resetIn` are the spec's; `requesters`, `delivered` and `turn` are
the model's own, for what stands outside the block (log entries 3, 4 and 7). -/
structure State where
  /-- `rx_len` (R21): the write cursor, 10 bits, the number of valid bytes. -/
  rxLen : BitVec 10
  /-- `rx_buf` (R23), valid and stale bytes. -/
  rxBuf : Memory
  /-- The response port (R12, R31): the response of the request being performed; idle (none) between requests. -/
  responsePort : Option Bytes
  /-- The reset input (R180): true when it is asserted. -/
  resetIn : Bool
  /-- MODEL: for each requester the requests it has presented and the block has not taken, oldest first (R50). -/
  requesters : List (List Bytes)
  /-- MODEL: the responses the requesters have received, oldest first, each with its requester's index. -/
  delivered : List (Nat × Bytes)
  /-- MODEL: how many requests the block has taken; the argument of `Config.schedule`. -/
  turn : Nat
deriving DecidableEq, Repr

/-- The faults. Neither is the spec's: the block has no traps (R165) and reports every error in a response. Both stop
only states that no run from reset reaches (the invariant of Sys2Proof/Safety.lean rules them out). -/
inductive Fault where
  /-- FEED's decode step or RXPEEK reads an index of 512 or above, which does not exist (R40). Safe: the cursor never
  passes 512 (R21). Log entry 2. -/
  | outsideBuffer (index : Nat)
  /-- FEED's decode step or RXPEEK reads an index that nothing has written since reset, whose value R180 leaves
  unspecified. Safe: the spec says no operation reads such a byte (R23, R181). Log entry 1. -/
  | unwrittenByte (index : Nat)
deriving DecidableEq, Repr

/-- The refusals. The block answers an illegal or malformed request with a response (R70, R71), so no request is
refused by the model. -/
inductive Refusal where
  /-- Raised only by an arm of `exec` whose instruction has no meaning yet; no arm does. Safe. -/
  | notModelled (mnemonic : String)
deriving DecidableEq, Repr

/-- The machine right after power-on reset (R180, R181): `rx_len` 0, `rx_buf` unspecified, ports idle. The model's own
fields start empty (log entries 3, 4, 6 and 7). -/
def State.reset : State where
  rxLen := 0
  rxBuf := []
  responsePort := none
  resetIn := false
  requesters := []
  delivered := []
  turn := 0

end Sys2Proof.Machine
end

