-- ==== Sys2Proof/Machine/Ops.lean ====
section
/-! DEFINITION. The named operations over the buffer, the cursor and the ports, the one shared way an error is
reported (the block's only exception mechanism, spec/60_exceptions.md R165), the reset input, and taking a request. -/

namespace Sys2Proof.Machine

/-! ## The buffer -/

/-- The byte listed at an index, if any. -/
def Memory.find (m : Memory) (i : Nat) : Option Byte :=
  match m with
  | [] => none
  | (a, b) :: rest => if a = i then some b else Memory.find rest i

/-- One byte read (R42). -/
def readByte (m : Memory) (i : Nat) : Except Fault Byte :=
  if i < Config.cap then
    match Memory.find m i with
    | some b => .ok b
    | none => .error (.unwrittenByte i)
  else .error (.outsideBuffer i)

/-- One byte write, keeping the cells in rising order. -/
def writeByte (m : Memory) (i : Nat) (b : Byte) : Memory :=
  match m with
  | [] => [(i, b)]
  | (a, c) :: rest =>
    if i < a then (i, b) :: (a, c) :: rest
    else if i = a then (i, b) :: rest
    else (a, c) :: writeByte rest i b

/-- `MemRead(i, n)` (R12): the bytes `rx_buf[i..i+n)`. -/
def memRead (m : Memory) (i n : Nat) : Except Fault Bytes :=
  match n with
  | 0 => .ok []
  | k + 1 =>
    match readByte m i with
    | .error f => .error f
    | .ok b =>
      match memRead m (i + 1) k with
      | .error f => .error f
      | .ok bs => .ok (b :: bs)

/-- `MemWrite(i, |s|, s)` (R12): writes the bytes of `s` at `rx_buf[i..i+|s|)`, in order (R133). Called only with
`i + |s| <= 512` (R131, R133). -/
def memWrite (m : Memory) (i : Nat) (s : Bytes) : Memory :=
  match s with
  | [] => m
  | b :: bs => memWrite (writeByte m i b) (i + 1) bs

/-- The valid bytes `rx_buf[0..rx_len)` (R23). -/
def validBytes (s : State) : Except Fault Bytes := memRead s.rxBuf 0 s.rxLen.toNat

/-- `rx_len <- 0`: the buffer becomes empty and its bytes stale; `rx_buf` is not changed (R23, R131, R134, R139). -/
def emptyBuffer (s : State) : State := { s with rxLen := 0 }

/-- The append step (R133): the chunk at the cursor, then the cursor past it. -/
def appendChunk (chunk : Bytes) (s : State) : State :=
  { s with
    rxBuf := memWrite s.rxBuf s.rxLen.toNat chunk
    rxLen := BitVec.ofNat 10 (s.rxLen.toNat + chunk.length) }

/-! ## Responses and errors -/

/-- `respond(r)` (R12). -/
def respond (r : Bytes) (s : State) : State := { s with responsePort := some r }

/-- `raise E` (R12, R165): the error's whole effect is its one-byte response, here with no state change. It is not a
trap: the block takes the next request (R166), so there is nothing to return from. FEED's codes go with the fields of
R75 instead and stand in Machine/Reassembler.lean. -/
def raiseError (code : ResultCode) (s : State) : State := respond [codeByte code] s

/-- The result code of a request that is no operation (R70, R71). -/
def requestErrorCode : RequestError → ResultCode
  | .illegalOp => .illegalOp
  | .malformed => .malformed

/-! ## Reset -/

/-- The reset input's effect (R180): `rx_len` 0, every byte of `rx_buf` unspecified, no response pending; the input is
then released. What the requesters hold outside the block stays (log entry 6). -/
def takeReset (s : State) : State :=
  { s with rxLen := 0, rxBuf := [], responsePort := none, resetIn := false }

/-! ## Taking a request -/

/-- The indices, from `k` on, of the requesters that have a request to take. -/
def readyFrom (k : Nat) (queues : List (List Bytes)) : List Nat :=
  match queues with
  | [] => []
  | [] :: rest => readyFrom (k + 1) rest
  | (_ :: _) :: rest => k :: readyFrom (k + 1) rest

/-- The requester the block takes its next request from (R50): any one that has a request, as `Config.schedule` says.
With one ready requester there is no choice. -/
def chooseRequester (turn : Nat) (ready : List Nat) : Option Nat :=
  match ready with
  | [] => none
  | [r] => some r
  | r :: r' :: rest => (r :: r' :: rest)[Config.schedule turn % (rest.length + 2)]?

/-- A requester's oldest request (R50: within one requester, in the order it presents them). -/
def headRequest (queues : List (List Bytes)) (r : Nat) : Option Bytes :=
  match queues[r]? with
  | some (req :: _) => some req
  | _ => none

/-- Taking a request (R49, R50): its requester, its bytes, and the state without it. None when no request is
pending. -/
def acceptRequest (s : State) : Option (Nat × Bytes × State) :=
  match chooseRequester s.turn (readyFrom 0 s.requesters) with
  | none => none
  | some r =>
    match headRequest s.requesters r with
    | none => none
    | some req => some (r, req, { s with requesters := s.requesters.modify r List.tail, turn := s.turn + 1 })

/-- The response goes from the port to its requester and the port is idle again (R31, R55). -/
def deliverTo (r : Nat) (s : State) : State :=
  match s.responsePort with
  | none => s
  | some bytes => { s with responsePort := none, delivered := s.delivered ++ [(r, bytes)] }

/-- A request's outcome with its response delivered. -/
def finishFor (r : Nat) (o : Host.Outcome State Fault Refusal) : Host.Outcome State Fault Refusal :=
  match o with
  | .next s => .next (deliverTo r s)
  | .fault f => .fault f
  | .refused e => .refused e

end Sys2Proof.Machine
end

