-- ==== Sys2Proof/Machine/Codec.lean ====
section
/-! DEFINITION. The Frame Codec (spec/40_codec.md): checksum, frame builder, frame decoder, and the operations LRC,
ENCODE and DECODE. None reads or writes the buffer (10_state.md R29). -/

namespace Sys2Proof.Machine

/-! ## Functions shared by the operations -/

/-- The sum of the bytes as unsigned values (R100). -/
def byteSum : Bytes → Nat
  | [] => 0
  | b :: bs => b.toNat + byteSum bs

/-- `lrc(s) = (256 - sum mod 256) mod 256` (R100). -/
def lrc (s : Bytes) : Byte := BitVec.ofNat 8 ((256 - byteSum s % 256) % 256)

/-- `hdr6(command, status, n)` (R103). -/
def hdr6 (command status : Half) (n : Nat) : Bytes :=
  u16Bytes command.toNat ++ u16Bytes status.toNat ++ u16Bytes n

/-- The frame builder (R103, layout R60), for `|p| <= 65535`. -/
def build (command status : Half) (p : Bytes) : Bytes :=
  [Config.sof, Config.lrc1Tx] ++ hdr6 command status p.length ++ [lrc (hdr6 command status p.length)]
    ++ p ++ [lrc p]

/-- `payloadLength` of a byte string that holds a header (R61). -/
def lengthField (s : Bytes) : Nat := be16 (byteAt s 6) (byteAt s 7)

/-- The total frame length `T = n + 10` (R62). It does not wrap (R111). -/
def frameLength (s : Bytes) : Nat := Config.hdr + lengthField s + Config.trl

/-- A well-formed frame (R63): `f` has the total length its own length field gives, the SOF byte and both checksums. -/
def wellFormedFrame (f : Bytes) : Bool :=
  decide (f.length = frameLength f)
    && decide (byteAt f 0 = Config.sof)
    && decide (byteAt f 8 = lrc (slice f 2 8))
    && decide (byteAt f (9 + lengthField f) = lrc (slice f 9 (9 + lengthField f)))

/-- The three Invalid reasons (R66). -/
inductive InvalidReason where
  | badSof
  | lrc2
  | lrc3
deriving DecidableEq, Repr

/-- The fields of a FRAME result (R104). -/
structure Frame where
  lrc1 : Byte
  command : Half
  status : Half
  payloadLength : Half
  payload : Bytes
  consumed : Nat
deriving DecidableEq, Repr

/-- The outcomes of the decoder function (R104). -/
inductive DecodeResult where
  | incomplete
  | invalid (why : InvalidReason)
  | frame (f : Frame)
deriving DecidableEq, Repr

/-- The fields of the frame at the front of `s` (R104, R61). -/
def frameFields (s : Bytes) : Frame where
  lrc1 := byteAt s 1
  command := halfOf (byteAt s 2) (byteAt s 3)
  status := halfOf (byteAt s 4) (byteAt s 5)
  payloadLength := halfOf (byteAt s 6) (byteAt s 7)
  payload := slice s 9 (9 + lengthField s)
  consumed := frameLength s

/-- The decoder function (R104), its checks in R104's order. `s[1]` is never tested (R64). -/
def decodeFrame (s : Bytes) : DecodeResult :=
  if s.length < Config.hdr then .incomplete
  else if byteAt s 0 ≠ Config.sof then .invalid .badSof
  else if s.length < frameLength s then .incomplete
  else if byteAt s 8 ≠ lrc (slice s 2 8) then .invalid .lrc2
  else if byteAt s (9 + lengthField s) ≠ lrc (slice s 9 (9 + lengthField s)) then .invalid .lrc3
  else .frame (frameFields s)

/-- The FRAME body of a response (R74). -/
def frameBody (f : Frame) : Bytes :=
  [f.lrc1] ++ u16Bytes f.command.toNat ++ u16Bytes f.status.toNat ++ u16Bytes f.payloadLength.toNat ++ f.payload

/-- The result code of an Invalid reason (R161). -/
def invalidCode : InvalidReason → ResultCode
  | .badSof => .badSof
  | .lrc2 => .lrc2
  | .lrc3 => .lrc3

/-- The result code of a decoder outcome (R160). -/
def decodeCode : DecodeResult → ResultCode
  | .incomplete => .incomplete
  | .invalid why => invalidCode why
  | .frame _ => .frame

/-- The body that follows a decoder outcome's code: the FRAME body, else nothing (R73). -/
def decodeBody : DecodeResult → Bytes
  | .incomplete => []
  | .invalid _ => []
  | .frame f => frameBody f

/-! ## Operations -/

/-- LRC (R108). -/
def execLrc (data : Bytes) (s : State) : Host.Outcome State Fault Refusal :=
  .next (respond [codeByte .ok, lrc data] s)

/-- ENCODE (R109): status is 0, a payload of more than 65535 bytes raises PAYLOAD_TOO_LONG. -/
def execEncode (command : Half) (payload : Bytes) (s : State) : Host.Outcome State Fault Refusal :=
  if Config.maxPayload < payload.length then .next (raiseError .payloadTooLong s)
  else .next (respond ([codeByte .ok] ++ u24Bytes (payload.length + 10) ++ build command 0 payload) s)

/-- DECODE (R110). -/
def execDecode (data : Bytes) (s : State) : Host.Outcome State Fault Refusal :=
  .next (respond ([codeByte (decodeCode (decodeFrame data))] ++ decodeBody (decodeFrame data)) s)

end Sys2Proof.Machine
end

