-- ==== Sys2Proof/Machine/Reassembler.lean ====
section
/-! DEFINITION. The RX Reassembler (spec/41_reassembler.md): the operations FEED, RXRESET and RXPEEK. -/

namespace Sys2Proof.Machine

/-- The overflow test of FEED (R131): would the chunk pass the 512-byte capacity? -/
def feedOverflows (chunk : Bytes) (s : State) : Bool := decide (Config.cap < s.rxLen.toNat + chunk.length)

/-- The count of buffered bytes the overflow empties (R75, R131). -/
def feedDropped (chunk : Bytes) (s : State) : Nat := if feedOverflows chunk s then s.rxLen.toNat else 0

/-- The overflow step (R131): the partial frame is abandoned before anything is appended. -/
def overflowStep (chunk : Bytes) (s : State) : State := if feedOverflows chunk s then emptyBuffer s else s

/-- FEED's response (R75, R135). -/
def feedResponse (code : ResultCode) (ovf : Bool) (dropped : Nat) (body : Bytes) : Bytes :=
  [codeByte code, flagsByte ovf] ++ u16Bytes dropped ++ body

/-- The disposition of the buffer after the decode (R134): kept while INCOMPLETE, else emptied whole (R136: bytes
after a frame are dropped). -/
def dispose (r : DecodeResult) (s : State) : State :=
  match r with
  | .incomplete => s
  | .invalid _ => emptyBuffer s
  | .frame _ => emptyBuffer s

/-- FEED (R130): overflow step, chunk-too-long step, append, decode, disposition, response. -/
def execFeed (chunk : Bytes) (s : State) : Host.Outcome State Fault Refusal :=
  let ovf := feedOverflows chunk s
  let dropped := feedDropped chunk s
  if Config.maxChunk < chunk.length then
    .next (respond (feedResponse .chunkTooLong ovf dropped []) (overflowStep chunk s))
  else
    let appended := appendChunk chunk (overflowStep chunk s)
    match validBytes appended with
    | .error f => .fault f
    | .ok bytes =>
      let r := decodeFrame bytes
      .next (respond (feedResponse (decodeCode r) ovf dropped (decodeBody r)) (dispose r appended))

/-- RXRESET (R139). -/
def execRxreset (s : State) : Host.Outcome State Fault Refusal :=
  .next (respond ([codeByte .ok] ++ u16Bytes s.rxLen.toNat) (emptyBuffer s))

/-- RXPEEK (R140). -/
def execRxpeek (s : State) : Host.Outcome State Fault Refusal :=
  match validBytes s with
  | .error f => .fault f
  | .ok bytes => .next (respond ([codeByte .ok] ++ u16Bytes s.rxLen.toNat ++ bytes) s)

end Sys2Proof.Machine
end

