-- ==== Sys2Proof/Machine/Dispatch.lean ====
section
/-! DEFINITION. One arm per instruction (spec/30_encoding.md R69). -/

namespace Sys2Proof.Machine

open Sys2Proof

def exec (i : Instr) (s : State) : Host.Outcome State Fault Refusal :=
  match i with
  | .lrc data => Sys2Proof.Machine.execLrc data s
  | .encode command payload => Sys2Proof.Machine.execEncode command payload s
  | .decode data => Sys2Proof.Machine.execDecode data s
  | .feed chunk => Sys2Proof.Machine.execFeed chunk s
  | .rxreset => Sys2Proof.Machine.execRxreset s
  | .rxpeek => Sys2Proof.Machine.execRxpeek s

end Sys2Proof.Machine
end

