-- ==== Sys2Proof/Machine/Step.lean ====
section
/-! DEFINITION. One step of the machine: the reset input when it is asserted, else one whole request
(spec/00_scope.md R6, 20_memory.md R45 and R49), else waiting for one (70_reset_and_hazards.md R182). -/

namespace Sys2Proof.Machine

open Sys2Proof

/-- Performing one request whole: a legal one by `exec`, an illegal or malformed one by its error response, with the
state unchanged (R70, R71, R163). -/
def perform (req : Bytes) (s : State) : Host.Outcome State Fault Refusal :=
  match decodeRequest req with
  | .ok i => exec i s
  | .error e => .next (raiseError (requestErrorCode e) s)

/-- One step: a reset (R180), one request with its response delivered (R49, R193), or waiting. -/
def step (s : State) : Host.Outcome State Fault Refusal :=
  if s.resetIn then .next (takeReset s)
  else
    match acceptRequest s with
    | none => .next s
    | some (r, req, taken) => finishFor r (perform req taken)

/-- The request whose bits are `w` presented as the only pending one, with the reset input released, so that the next
step takes it (log entry 8). -/
def State.withFetchWord (s : State) (nbits w : Nat) : State :=
  { s with requesters := [[requestOfWord nbits w]], resetIn := false }

end Sys2Proof.Machine
end

