-- ==== Sys2Proof/Machine/Assembler.lean ====
section
/-! DEFINITION. The assembly syntax of spec/30_encoding.md R77: one request a line. `assembleLine` reads a line into
the request's bytes by R67 to R69. What R77 leaves open (spacing, lower-case hexadecimal) is log entry 10. -/

namespace Sys2Proof.Machine

/-- The pieces of a line. -/
inductive Token where
  | word (cs : List Char)
  | leftBracket
  | rightBracket
  | comma
  | star
deriving DecidableEq, Repr

/-- The word read so far (kept reversed), if there is one, in front of the later tokens. -/
def flushWord (acc : List Char) (later : List Token) : List Token :=
  match acc with
  | [] => later
  | c :: cs => .word (c :: cs).reverse :: later

/-- The tokens of a line; a `;` starts a comment to the end of the line (R77). -/
def tokensOf (acc : List Char) (line : List Char) : List Token :=
  match line with
  | [] => flushWord acc []
  | c :: cs =>
    if c = ';' then flushWord acc []
    else if c = ' ' then flushWord acc (tokensOf [] cs)
    else if c = '[' then flushWord acc (.leftBracket :: tokensOf [] cs)
    else if c = ']' then flushWord acc (.rightBracket :: tokensOf [] cs)
    else if c = ',' then flushWord acc (.comma :: tokensOf [] cs)
    else if c = '*' then flushWord acc (.star :: tokensOf [] cs)
    else tokensOf (c :: acc) cs

/-- The value of a hexadecimal digit. -/
def hexDigit (c : Char) : Option Nat :=
  if '0'.toNat ≤ c.toNat ∧ c.toNat ≤ '9'.toNat then some (c.toNat - '0'.toNat)
  else if 'A'.toNat ≤ c.toNat ∧ c.toNat ≤ 'F'.toNat then some (c.toNat - 'A'.toNat + 10)
  else if 'a'.toNat ≤ c.toNat ∧ c.toNat ≤ 'f'.toNat then some (c.toNat - 'a'.toNat + 10)
  else none

/-- The number written by digits in base `base` (10 or 16), after the value `acc`. -/
def digitsValue (base acc : Nat) (cs : List Char) : Option Nat :=
  match cs with
  | [] => some acc
  | c :: rest =>
    match hexDigit c with
    | none => none
    | some d => if d < base then digitsValue base (acc * base + d) rest else none

/-- A number: decimal, or hexadecimal with a `0x` prefix (R77). -/
def numberValue (cs : List Char) : Option Nat :=
  match cs with
  | [] => none
  | '0' :: 'x' :: c :: rest => digitsValue 16 0 (c :: rest)
  | c :: rest => digitsValue 10 0 (c :: rest)

/-- A two-digit hexadecimal byte (R77). -/
def byteValue (cs : List Char) : Option Byte :=
  match cs with
  | [hi, lo] =>
    match hexDigit hi, hexDigit lo with
    | some h, some l => some (BitVec.ofNat 8 (h * 16 + l))
    | _, _ => none
  | _ => none

/-- The number of copies in `xx*k` (R77), decimal. -/
def countValue (cs : List Char) : Option Nat :=
  match cs with
  | [] => none
  | c :: rest => digitsValue 10 0 (c :: rest)

/-- The bytes of a list up to its closing bracket, which must end the line; `xx*k` is `k` copies of `xx` (R77). -/
def listBytes (ts : List Token) : Option Bytes :=
  match ts with
  | [.rightBracket] => some []
  | .word b :: .star :: .word k :: rest =>
    match byteValue b, countValue k, listBytes rest with
    | some v, some n, some bs => some (List.replicate n v ++ bs)
    | _, _, _ => none
  | .word b :: rest =>
    match byteValue b, listBytes rest with
    | some v, some bs => some (v :: bs)
    | _, _ => none
  | _ => none

/-- A bracketed byte list (R77). -/
def bracketed (ts : List Token) : Option Bytes :=
  match ts with
  | .leftBracket :: rest => listBytes rest
  | _ => none

/-- ENCODE's operands: `cmd, [b0 b1 ...]`, the command a 16-bit value (R77, R68). -/
def encodeOperands (ts : List Token) : Option Instr :=
  match ts with
  | .word cmd :: .comma :: rest =>
    match numberValue cmd, bracketed rest with
    | some v, some bs => if v < 65536 then some (.encode (BitVec.ofNat 16 v) bs) else none
    | _, _ => none
  | _ => none

/-- The instruction a line's tokens write. -/
def parseTokens (ts : List Token) : Option Instr :=
  match ts with
  | .word mnemonic :: rest =>
    if mnemonic = ['L', 'R', 'C'] then (bracketed rest).map Instr.lrc
    else if mnemonic = ['E', 'N', 'C', 'O', 'D', 'E'] then encodeOperands rest
    else if mnemonic = ['D', 'E', 'C', 'O', 'D', 'E'] then (bracketed rest).map Instr.decode
    else if mnemonic = ['F', 'E', 'E', 'D'] then (bracketed rest).map Instr.feed
    else if mnemonic = ['R', 'X', 'R', 'E', 'S', 'E', 'T'] then
      match rest with
      | [] => some .rxreset
      | _ => none
    else if mnemonic = ['R', 'X', 'P', 'E', 'E', 'K'] then
      match rest with
      | [] => some .rxpeek
      | _ => none
    else none
  | _ => none

/-- The request a line assembles to (R77: encoded by R67 to R69, `N` the number of bytes in the list); none for a line
that writes no request, or one whose operand does not fit `N`. -/
def assembleLine (line : List Char) : Option Bytes :=
  match parseTokens (tokensOf [] line) with
  | none => none
  | some i => if i.wellFormed then some (encodeRequest i) else none

end Sys2Proof.Machine
end

