-- ==== Sys2Proof/Safety.lean ====
section
/-! DEFINITION. What counts as a good state and a good run, in the terms the statements use. -/

namespace Sys2Proof

open Machine

/-- The buffer's own invariant, true before and after every operation (spec/10_state.md R21, R23, R24): the cursor is at
most 512, the cells are in canonical form, and the valid bytes are there and are empty or decode INCOMPLETE. -/
structure BufferInv (s : State) : Prop where
  cursor : s.rxLen.toNat ≤ Config.cap
  cells : s.rxBuf.wf = true
  partialFrame : ∃ v, validBytes s = .ok v ∧ (s.rxLen = 0 ∨ decodeFrame v = .incomplete)

/-- The invariant between requests: the buffer's, and an idle response port (R31, R181). -/
structure Inv (s : State) : Prop where
  buffer : BufferInv s
  portIdle : s.responsePort = none

/-- A run of any length from `s` neither faults nor is refused. -/
def NeverStops (s : State) : Prop := ∀ n, ∃ t, core.run n s = .next t

/-- How many requests the requesters have presented that the block has not taken. -/
def pendingCount (s : State) : Nat := (s.requesters.map List.length).sum

/-- Two states that differ at most in bytes of the buffer beyond the cursor (R23): the same cursor, the same valid bytes,
the same ports and the same requesters. -/
structure SameView (s t : State) : Prop where
  rxLen : t.rxLen = s.rxLen
  valid : validBytes t = validBytes s
  responsePort : t.responsePort = s.responsePort
  resetIn : t.resetIn = s.resetIn
  requesters : t.requesters = s.requesters
  delivered : t.delivered = s.delivered
  turn : t.turn = s.turn

/-- The reassembler over the plain list of valid bytes, the form R23 allows ("A model may represent the buffer as the
list `rx_buf[0..rx_len)` alone"): the valid bytes after FEED, and its response (R130). -/
def listFeed (valid chunk : Bytes) : Bytes × Bytes :=
  let ovf := decide (512 < valid.length + chunk.length)
  let kept := if ovf then [] else valid
  let status := (if ovf then 0x01 else 0x00) :: u16Bytes (if ovf then valid.length else 0)
  if 512 < chunk.length then ([], 0x21 :: status)
  else match decodeFrame (kept ++ chunk) with
    | .incomplete => (kept ++ chunk, 0x02 :: status)
    | .invalid .badSof => ([], 0x10 :: status)
    | .invalid .lrc2 => ([], 0x11 :: status)
    | .invalid .lrc3 => ([], 0x12 :: status)
    | .frame f => ([], 0x01 :: (status ++ frameBody f))

/-- The index FEED stores the chunk's first byte at (R131, R133): the cursor, or 0 after an overflow. -/
def feedStart (s : State) (chunk : Bytes) : Nat := (overflowStep chunk s).rxLen.toNat

/-- FEED of each chunk in turn over the plain list of valid bytes: the valid bytes in the end, and the responses. -/
def listFeeds : Bytes → List Bytes → Bytes × List Bytes
  | valid, [] => (valid, [])
  | valid, chunk :: chunks =>
    let after := listFeed valid chunk
    let rest := listFeeds after.1 chunks
    (rest.1, after.2 :: rest.2)

/-- The responses a requester has received, oldest first. -/
def responsesTo (r : Nat) (delivered : List (Nat × Bytes)) : List Bytes :=
  (delivered.filter fun d => d.1 = r).map Prod.snd

/-- A request that no FEED and no RXRESET decodes from: an LRC, ENCODE, DECODE or RXPEEK, or no operation at all. -/
def LeavesBuffer (req : Bytes) : Prop :=
  ∀ i, decodeRequest req = .ok i → (∀ chunk, i ≠ .feed chunk) ∧ i ≠ .rxreset

/-- Requester `r` presents these chunks in order, each as a FEED, and nothing else; the other requesters, as many as
there are, present no FEED and no RXRESET (the single writer of 70_reset_and_hazards.md R187). -/
structure SingleWriter (r : Nat) (chunks : List Bytes) (s : State) : Prop where
  resetReleased : s.resetIn = false
  feeds : s.requesters[r]? = some (chunks.map fun c => encodeRequest (.feed c))
  sizes : ∀ c ∈ chunks, c.length ≤ Config.len24Max
  others : ∀ k q, k ≠ r → s.requesters[k]? = some q → ∀ req ∈ q, LeavesBuffer req

end Sys2Proof
end

