-- ==== Sys2Proof/Certificates/Slice0/Obligations.lean ====
section
/-! DEFINITION. The statements for the provers, from the numbered rules of spec/. -/

open Sys2Proof Sys2Proof.Machine

/-! ## Checksum (spec/40_codec.md) -/

/-- R100: the checksum's formula over the unsigned values of the bytes; the empty string's checksum is 0. -/
def Obligations.ChecksumFormula : Prop :=
  (∀ s : Bytes, (lrc s).toNat = (256 - (s.map BitVec.toNat).sum % 256) % 256) ∧ lrc [] = 0x00

/-- R101: bytes and checksum sum to 0 modulo 256; a string with its checksum appended has checksum 0. -/
def Obligations.ChecksumCancelsByteSum : Prop :=
  ∀ s : Bytes, ((s.map BitVec.toNat).sum + (lrc s).toNat) % 256 = 0 ∧ lrc (s ++ [lrc s]) = 0x00

/-- The spec's own inference from R100 (its R102, marked derived): additivity; order does not matter; zero bytes do not matter, at the end or removed from anywhere; one
changed byte is always detected; two compensating changes are not. -/
def Obligations.ChecksumAlgebra : Prop :=
  (∀ s t : Bytes, (lrc (s ++ t)).toNat = ((lrc s).toNat + (lrc t).toNat) % 256)
  ∧ (∀ s t : Bytes, s.Perm t → lrc s = lrc t)
  ∧ (∀ (s : Bytes) (k : Nat), lrc (s ++ List.replicate k 0x00) = lrc s)
  ∧ (∀ s : Bytes, lrc (s.filter fun b => b ≠ 0x00) = lrc s)
  ∧ (∀ (s : Bytes) (i : Nat) (b : Byte) (h : i < s.length), b ≠ s[i] → lrc (s.set i b) ≠ lrc s)
  ∧ (∀ (s t u : Bytes) (a b a' b' : Byte), a + b = a' + b' → lrc (s ++ [a] ++ t ++ [b] ++ u) = lrc (s ++ [a'] ++ t ++ [b'] ++ u))

/-! ## Byte order (spec/00_scope.md R11) -/

/-- R11: big-endian assembly, and the split as its inverse, over every value the width holds. -/
def Obligations.BigEndianFields : Prop :=
  (∀ hi lo : Byte, be16 hi lo = hi.toNat * 256 + lo.toNat)
  ∧ (∀ a b c : Byte, be24 a b c = a.toNat * 65536 + b.toNat * 256 + c.toNat)
  ∧ (∀ v : BitVec 16, u16Bytes v.toNat = [v.extractLsb' 8 8, v.extractLsb' 0 8])
  ∧ (∀ v : BitVec 24, u24Bytes v.toNat = [v.extractLsb' 16 8, v.extractLsb' 8 8, v.extractLsb' 0 8])
  ∧ (∀ hi lo : Byte, u16Bytes (be16 hi lo) = [hi, lo])
  ∧ (∀ a b c : Byte, u24Bytes (be24 a b c) = [a, b, c])

/-! ## Codec operations -/

/-- R108: LRC completes in every state: it responds OK and the checksum, and nothing else of the state changes. Its request
is the header 01, the length in 24 bits and the data; the rule's corner cases and example. -/
def Obligations.LrcRespondsChecksum : Prop :=
  (∀ data : Bytes, data.length ≤ 16777215 → decodeRequest ([0x01] ++ u24Bytes data.length ++ data) = .ok (.lrc data))
  ∧ (∀ (data : Bytes) (s : State),
      ∃ c : Byte, exec (.lrc data) s = .next { s with responsePort := some [0x00, c] }
        ∧ c.toNat = (256 - (data.map BitVec.toNat).sum % 256) % 256)
  ∧ (∀ (data : Bytes) (s : State), 256 ∣ (data.map BitVec.toNat).sum →
      exec (.lrc data) s = .next { s with responsePort := some [0x00, 0x00] })
  ∧ (∀ s : State,
      exec (.lrc []) s = .next { s with responsePort := some [0x00, 0x00] }
      ∧ exec (.lrc [0x80, 0x80]) s = .next { s with responsePort := some [0x00, 0x00] }
      ∧ exec (.lrc [0xFF, 0x01]) s = .next { s with responsePort := some [0x00, 0x00] }
      ∧ exec (.lrc (List.replicate 256 0x01)) s = .next { s with responsePort := some [0x00, 0x00] }
      ∧ exec (.lrc [0xFF]) s = .next { s with responsePort := some [0x00, 0x01] }
      ∧ exec (.lrc [0x03, 0xE8, 0x00, 0x00, 0x00, 0x00]) s = .next { s with responsePort := some [0x00, 0x15] })
  ∧ decodeRequest [0x01, 0x00, 0x00, 0x06, 0x03, 0xE8, 0x00, 0x00, 0x00, 0x00]
      = .ok (.lrc [0x03, 0xE8, 0x00, 0x00, 0x00, 0x00])

/-- R109: ENCODE completes in every state. For a payload of at most 65535 bytes it responds OK, the 24-bit frame length and
the frame byte by byte (status 0, payload copied unchanged), for a longer one PAYLOAD_TOO_LONG and no frame; nothing
else of the state changes. Its request is the header 02, the command, the 24-bit length and the payload; the rule's
corner cases and example. -/
def Obligations.EncodeRespondsFrame : Prop :=
  (∀ (command : Half) (p : Bytes), p.length ≤ 16777215 →
    decodeRequest ([0x02, command.extractLsb' 8 8, command.extractLsb' 0 8] ++ u24Bytes p.length ++ p)
      = .ok (.encode command p))
  ∧ (∀ (command : Half) (p : Bytes) (s : State), p.length ≤ 65535 →
    let fields : Bytes := [command.extractLsb' 8 8, command.extractLsb' 0 8, 0x00, 0x00,
      BitVec.ofNat 8 (p.length / 256), BitVec.ofNat 8 p.length]
    let frame : Bytes := [0x11, 0xEF] ++ fields ++ [lrc fields] ++ p ++ [lrc p]
    let response : Bytes := [0x00] ++ u24Bytes (p.length + 10) ++ frame
    exec (.encode command p) s = .next { s with responsePort := some response } ∧ frame.length = p.length + 10)
  ∧ (∀ (command : Half) (p : Bytes) (s : State), 65535 < p.length →
    exec (.encode command p) s = .next { s with responsePort := some [0x20] })
  ∧ (∀ (command : Half) (s : State),
    let fields : Bytes := [command.extractLsb' 8 8, command.extractLsb' 0 8, 0x00, 0x00, 0x00, 0x00]
    let response : Bytes := [0x00, 0x00, 0x00, 0x0A, 0x11, 0xEF] ++ fields ++ [lrc fields, 0x00]
    exec (.encode command []) s = .next { s with responsePort := some response })
  ∧ (∀ (command : Half) (p : Bytes) (s : State), p.length = 65535 →
    let start : Bytes := [0x00, 0x01, 0x00, 0x09, 0x11, 0xEF, command.extractLsb' 8 8, command.extractLsb' 0 8,
      0x00, 0x00, 0xFF, 0xFF]
    ∃ rest : Bytes, rest.length = 65537
      ∧ exec (.encode command p) s = .next { s with responsePort := some (start ++ rest) })
  ∧ (∀ s : State,
    let zeros : Bytes := [0x00, 0x00, 0x00, 0x0A, 0x11, 0xEF, 0x00, 0x00, 0x00, 0x00, 0x00, 0x00, 0x00, 0x00]
    exec (.encode 0 []) s = .next { s with responsePort := some zeros })
  ∧ (∀ s : State,
    let version : Bytes := [0x00, 0x00, 0x00, 0x0A, 0x11, 0xEF, 0x03, 0xE8, 0x00, 0x00, 0x00, 0x00, 0x15, 0x00]
    exec (.encode 1000 []) s = .next { s with responsePort := some version })
  ∧ decodeRequest [0x02, 0x03, 0xE8, 0x00, 0x00, 0x00] = .ok (.encode 1000 [])

/-- The frame in an ENCODE response has lrc1 0xEF, status 0 and the two checksums of R60 (R65), and is well-formed: that
last is the spec's own inference from R63 and R101 (in R65, marked derived). -/
def Obligations.EncoderOutputWellFormed : Prop :=
  ∀ (command : Half) (p : Bytes) (s : State), p.length ≤ 65535 →
    ∃ f : Bytes, exec (.encode command p) s
        = .next { s with responsePort := some ([0x00] ++ u24Bytes f.length ++ f) }
      ∧ f.length = p.length + 10
      ∧ byteAt f 1 = 0xEF
      ∧ be16 (byteAt f 4) (byteAt f 5) = 0
      ∧ byteAt f 8 = lrc (slice f 2 8)
      ∧ byteAt f (9 + p.length) = lrc p
      ∧ wellFormedFrame f = true

/-- R104: the decoder function's outcomes, with the checks in their order and the FRAME result's fields. -/
def Obligations.DecoderCheckOrder : Prop :=
  ∀ s : Bytes,
    decodeFrame s =
      if s.length < 9 then .incomplete
      else if byteAt s 0 ≠ 0x11 then .invalid .badSof
      else if s.length < be16 (byteAt s 6) (byteAt s 7) + 10 then .incomplete
      else if byteAt s 8 ≠ lrc (slice s 2 8) then .invalid .lrc2
      else if byteAt s (9 + be16 (byteAt s 6) (byteAt s 7)) ≠ lrc (slice s 9 (9 + be16 (byteAt s 6) (byteAt s 7))) then
        .invalid .lrc3
      else .frame
        { lrc1 := byteAt s 1
          command := BitVec.ofNat 16 (be16 (byteAt s 2) (byteAt s 3))
          status := BitVec.ofNat 16 (be16 (byteAt s 4) (byteAt s 5))
          payloadLength := BitVec.ofNat 16 (be16 (byteAt s 6) (byteAt s 7))
          payload := slice s 9 (9 + be16 (byteAt s 6) (byteAt s 7))
          consumed := be16 (byteAt s 6) (byteAt s 7) + 10 }

/-- The corner cases of the decoder function: the spec's own inference from R104 (its R105, marked derived). -/
def Obligations.DecoderCornerCases : Prop :=
  decodeFrame [] = .incomplete
  ∧ (∀ s : Bytes, s.length < 9 → decodeFrame s = .incomplete)
  ∧ decodeFrame [0x00, 0x01, 0x02] = .incomplete
  ∧ (∀ s : Bytes, 9 ≤ s.length → byteAt s 0 ≠ 0x11 → decodeFrame s = .invalid .badSof)
  ∧ (∀ s : Bytes, 9 ≤ s.length → byteAt s 0 = 0x11 → s.length < be16 (byteAt s 6) (byteAt s 7) + 10 →
      decodeFrame s = .incomplete)
  ∧ (∀ s : Bytes, 10 ≤ s.length → byteAt s 0 = 0x11 → byteAt s 6 = 0x00 → byteAt s 7 = 0x00 →
      byteAt s 8 = lrc (slice s 2 8) → frameLength s = 10 ∧ ((∃ f, decodeFrame s = .frame f) ↔ byteAt s 9 = 0x00))
  ∧ (∀ s : Bytes, 10 ≤ frameLength s ∧ frameLength s ≤ 65545)
  ∧ (∃ s : Bytes, frameLength s = 65545)

/-- R110: DECODE completes in every state; its response by the conditions on the data alone, in the order of R104; a FRAME
response reports the received header bytes 1 to 7 and the payload; nothing else of the state changes. Its request is
the header 03, the 24-bit length and the data; the rule's example. -/
def Obligations.DecodeRespondsOutcome : Prop :=
  (∀ data : Bytes, data.length ≤ 16777215 →
    decodeRequest ([0x03] ++ u24Bytes data.length ++ data) = .ok (.decode data))
  ∧ (∀ (d : Bytes) (s : State),
    let n := be16 (byteAt d 6) (byteAt d 7)
    let response : Bytes :=
      if d.length < 9 then [0x02]
      else if byteAt d 0 ≠ 0x11 then [0x10]
      else if d.length < n + 10 then [0x02]
      else if byteAt d 8 ≠ lrc (slice d 2 8) then [0x11]
      else if byteAt d (9 + n) ≠ lrc (slice d 9 (9 + n)) then [0x12]
      else 0x01 :: (slice d 1 8 ++ slice d 9 (9 + n))
    exec (.decode d) s = .next { s with responsePort := some response })
  ∧ (∀ s : State, exec (.decode [0x11, 0xEF, 0x03, 0xE8, 0x00, 0x00, 0x00, 0x02, 0x13, 0x02, 0x03, 0xFB]) s
      = .next { s with responsePort := some [0x01, 0xEF, 0x03, 0xE8, 0x00, 0x00, 0x00, 0x02, 0x02, 0x03] })

/-- The FRAME body of a decoded frame (R74): lrc1 as received, command, status, payloadLength, payload, `7 + n` bytes. That
the SOF and checksums it leaves out are those R63 asks for is the spec's own inference (in R74, marked derived). -/
def Obligations.FrameBodyLayout : Prop :=
  ∀ (s : Bytes) (f : Frame), decodeFrame s = .frame f →
    let n := be16 (byteAt s 6) (byteAt s 7)
    frameBody f = [byteAt s 1] ++ slice s 2 4 ++ slice s 4 6 ++ slice s 6 8 ++ slice s 9 (9 + n)
    ∧ (frameBody f).length = 7 + n
    ∧ byteAt s 0 = 0x11 ∧ byteAt s 8 = lrc (slice s 2 8) ∧ byteAt s (9 + n) = lrc (slice s 9 (9 + n))

/-- R64: byte 1 takes no part in well-formedness: with any value there a frame is well-formed or not as before, and DECODE
of bytes that begin with it, and FEED when the bytes it decodes (the valid bytes and the chunk, or the chunk alone
after an overflow) begin with it, report the received value as the first byte of the FRAME body. -/
def Obligations.LrcOneNeverValidated : Prop :=
  (∀ (f : Bytes) (b : Byte), wellFormedFrame (f.set 1 b) = wellFormedFrame f)
  ∧ (∀ (f x : Bytes) (b : Byte) (s : State), wellFormedFrame f = true →
      ∃ t rest, exec (.decode (f.set 1 b ++ x)) s = .next t ∧ t.responsePort = some (0x01 :: b :: rest))
  ∧ (∀ (f x v chunk : Bytes) (b : Byte) (s : State), wellFormedFrame f = true → validBytes s = .ok v →
      chunk.length ≤ 512 → (if 512 < v.length + chunk.length then chunk else v ++ chunk) = f.set 1 b ++ x →
      ∃ t fl hi lo rest, exec (.feed chunk) s = .next t
        ∧ t.responsePort = some (0x01 :: fl :: hi :: lo :: b :: rest))

/-- A byte string of its own frame length is well-formed exactly when SOF and both checksums are right (R63), and exactly
then the decoder delivers a frame; of any byte string the decoder delivers a frame exactly when the bytes its length
field claims are present and are a well-formed frame. That the decoder delivers exactly the well-formed frames follows
from R104 with R63; that a FRAME result implies the SOF and checksums is the spec's own inference (in R74, marked
derived). -/
def Obligations.DecoderAcceptsExactlyWellFormed : Prop :=
  (∀ f : Bytes, f.length = be16 (byteAt f 6) (byteAt f 7) + 10 →
    (wellFormedFrame f = true ↔ byteAt f 0 = 0x11 ∧ byteAt f 8 = lrc (slice f 2 8)
      ∧ byteAt f (9 + be16 (byteAt f 6) (byteAt f 7)) = lrc (slice f 9 (9 + be16 (byteAt f 6) (byteAt f 7))))
    ∧ ((∃ r, decodeFrame f = .frame r) ↔ wellFormedFrame f = true))
  ∧ (∀ s : Bytes, (∃ f, decodeFrame s = .frame f) ↔
    9 ≤ s.length ∧ be16 (byteAt s 6) (byteAt s 7) + 10 ≤ s.length
      ∧ wellFormedFrame (s.take (be16 (byteAt s 6) (byteAt s 7) + 10)) = true)

/-- The decoder looks only at the first `T` bytes, and a FRAME result consumes exactly `T` (R106). -/
def Obligations.DecoderIgnoresTrailingBytes : Prop :=
  ∀ s x : Bytes, 9 ≤ s.length → be16 (byteAt s 6) (byteAt s 7) + 10 ≤ s.length →
    decodeFrame (s ++ x) = decodeFrame s
    ∧ ∀ f, decodeFrame (s ++ x) = .frame f → f.consumed = be16 (byteAt s 6) (byteAt s 7) + 10

/-- Decoding a built frame gives back command, status 0 and payload, for every payload that fits the field: the spec's own
inference from R101, R103 and R104 (its R107, marked derived). -/
def Obligations.FrameRoundTrip : Prop :=
  ∀ (command : Half) (p : Bytes), p.length ≤ 65535 →
    decodeFrame (build command 0 p) = .frame
      { lrc1 := 0xEF
        command := command
        status := 0
        payloadLength := BitVec.ofNat 16 p.length
        payload := p
        consumed := p.length + 10 }
    ∧ (BitVec.ofNat 16 p.length).toNat = p.length

/-- A well-formed frame with one byte changed in the header fields or lrc2 (length bytes apart) decodes to LRC2, with one
byte changed in the payload or lrc3 decodes to LRC3, and with another SOF decodes to BAD_SOF. -/
def Obligations.SingleByteCorruptionDetected : Prop :=
  ∀ (f : Bytes) (i : Nat) (b : Byte), wellFormedFrame f = true → i < f.length → b ≠ byteAt f i →
    (i = 0 → decodeFrame (f.set i b) = .invalid .badSof)
    ∧ ((2 ≤ i ∧ i ≤ 5) ∨ i = 8 → decodeFrame (f.set i b) = .invalid .lrc2)
    ∧ (9 ≤ i → decodeFrame (f.set i b) = .invalid .lrc3)

/-- Every encoder frame has checksum 0 as a whole (spec/95_test_vectors.md P1). -/
def Obligations.EncodedFrameSumsToZero : Prop :=
  ∀ (command : Half) (p : Bytes), p.length ≤ 65535 → lrc (build command 0 p) = 0x00

/-- R29: LRC, ENCODE and DECODE read no state and write none: one response for all states, nothing else changed. -/
def Obligations.CodecReadsNoState : Prop :=
  ∀ i : Instr, (∃ d, i = .lrc d) ∨ (∃ c p, i = .encode c p) ∨ (∃ d, i = .decode d) →
    ∃ r : Bytes, ∀ s : State, exec i s = .next { s with responsePort := some r }

/-! ## Reassembler operations (spec/41_reassembler.md) -/

/-- R130: FEED completes whenever the valid bytes can be read, and is the reassembler over the plain byte list: the valid
bytes and the response are those of `listFeed`, the cursor is their number, a stored byte stands where the chunk says,
every other byte of the buffer reads as before, and nothing outside the buffer and the response port changes. Its
request is the header 04, the 24-bit length and the chunk; the rule's example. -/
def Obligations.FeedRefinesByteList : Prop :=
  (∀ chunk : Bytes, chunk.length ≤ 16777215 →
    decodeRequest ([0x04] ++ u24Bytes chunk.length ++ chunk) = .ok (.feed chunk))
  ∧ (∀ (s : State) (v chunk : Bytes), validBytes s = .ok v →
    ∃ t, exec (.feed chunk) s = .next t
      ∧ validBytes t = .ok (listFeed v chunk).1
      ∧ t.rxLen.toNat = (listFeed v chunk).1.length
      ∧ t.responsePort = some (listFeed v chunk).2
      ∧ (512 < chunk.length → ∀ k, readByte t.rxBuf k = readByte s.rxBuf k)
      ∧ (chunk.length ≤ 512 →
          (∀ j (h : j < chunk.length), readByte t.rxBuf (feedStart s chunk + j) = .ok chunk[j])
          ∧ ∀ k, k < feedStart s chunk ∨ feedStart s chunk + chunk.length ≤ k →
              readByte t.rxBuf k = readByte s.rxBuf k)
      ∧ t.resetIn = s.resetIn ∧ t.requesters = s.requesters ∧ t.delivered = s.delivered ∧ t.turn = s.turn)
  ∧ (∀ s : State, s.rxLen = 0 →
    ∃ t, exec (.feed [0x11, 0xEF, 0x03, 0xE8, 0x00, 0x00, 0x00, 0x00, 0x15, 0x00]) s = .next t ∧ t.rxLen = 0
      ∧ t.responsePort = some [0x01, 0x00, 0x00, 0x00, 0xEF, 0x03, 0xE8, 0x00, 0x00, 0x00, 0x00])

/-- R75: the status fields of every FEED response between requests: a code of the six, flags with OVF in bit 0 and the other
bits 0, OVF exactly when the chunk would pass 512 bytes, the dropped count the old cursor then and 0 otherwise, at
most 512, and a body only behind FRAME. -/
def Obligations.FeedStatusFields : Prop :=
  ∀ (s : State) (chunk : Bytes), BufferInv s →
    ∃ t rc fl dropped body, exec (.feed chunk) s = .next t
      ∧ t.responsePort = some ([rc, fl] ++ u16Bytes dropped ++ body)
      ∧ rc ∈ ([0x01, 0x02, 0x10, 0x11, 0x12, 0x21] : Bytes)
      ∧ (fl.getLsbD 0 = true ↔ 512 < s.rxLen.toNat + chunk.length) ∧ fl.extractLsb' 1 7 = 0
      ∧ (512 < s.rxLen.toNat + chunk.length → dropped = s.rxLen.toNat)
      ∧ (s.rxLen.toNat + chunk.length ≤ 512 → dropped = 0)
      ∧ dropped ≤ 512
      ∧ (rc ≠ 0x01 → body = [])

/-- R131: a FEED that would pass 512 bytes acts as on the emptied buffer, and its response has OVF = 1 and the old cursor
as dropped count; the emptied buffer's own OVF is 1 only for a chunk over 512. A FEED that stays within 512 responds
OVF = 0 and dropped 0. -/
def Obligations.FeedOverflowDropsPartialFrame : Prop :=
  (∀ (s : State) (chunk : Bytes), 512 < s.rxLen.toNat + chunk.length →
    ∃ t u rc body, exec (.feed chunk) s = .next t
      ∧ exec (.feed chunk) { s with rxLen := 0 } = .next u
      ∧ t.responsePort = some ([rc, 0x01] ++ u16Bytes s.rxLen.toNat ++ body)
      ∧ u.responsePort = some ([rc, if 512 < chunk.length then 0x01 else 0x00] ++ [0x00, 0x00] ++ body)
      ∧ { t with responsePort := none } = { u with responsePort := none })
  ∧ (∀ (s : State) (v chunk : Bytes), validBytes s = .ok v → s.rxLen.toNat + chunk.length ≤ 512 →
    ∃ t rc body, exec (.feed chunk) s = .next t ∧ t.responsePort = some ([rc, 0x00, 0x00, 0x00] ++ body))

/-- R132: a chunk over 512 bytes empties the buffer, is discarded whole, and is answered CHUNK_TOO_LONG with OVF = 1 and the
old cursor as dropped count, in every state; the buffer's bytes do not change. -/
def Obligations.FeedChunkTooLong : Prop :=
  ∀ (s : State) (chunk : Bytes), 512 < chunk.length →
    exec (.feed chunk) s
      = .next { s with rxLen := 0, responsePort := some ([0x21, 0x01] ++ u16Bytes s.rxLen.toNat) }

/-- R136: when the buffered bytes hold a whole frame and more, FEED reports that frame alone and empties the buffer; the
number of lost bytes is not in the response, which is that of the frame's own `T` bytes. -/
def Obligations.FeedDropsTrailingBytes : Prop :=
  ∀ (s : State) (v chunk : Bytes) (f : Frame), validBytes s = .ok v → v.length + chunk.length ≤ 512 →
    decodeFrame (v ++ chunk) = .frame f → f.consumed < v.length + chunk.length →
    ∃ t, exec (.feed chunk) s = .next t ∧ t.rxLen = 0 ∧ validBytes t = .ok []
      ∧ t.responsePort = some ([0x01, 0x00, 0x00, 0x00] ++ frameBody f)
      ∧ decodeFrame ((v ++ chunk).take f.consumed) = .frame f

/-- The five corner cases of FEED, between requests (the buffer's invariant): the spec's own inference from R130 to R136 and
R24 (its R138, marked derived). -/
def Obligations.FeedCornerCases : Prop :=
  (∀ s : State, BufferInv s →
    exec (.feed []) s = .next { s with responsePort := some [0x02, 0x00, 0x00, 0x00] })
  ∧ (∀ (s : State) (chunk : Bytes), s.rxLen = 0 → chunk.length = 512 →
    ∃ t, exec (.feed chunk) s = .next t
      ∧ t.responsePort = some ([codeByte (decodeCode (decodeFrame chunk)), 0x00, 0x00, 0x00]
          ++ decodeBody (decodeFrame chunk))
      ∧ (if decodeFrame chunk = .incomplete then t.rxLen.toNat = 512 else t.rxLen = 0))
  ∧ (∀ (s : State) (chunk : Bytes), s.rxLen ≠ 0 → chunk.length = 512 →
    ∃ t, exec (.feed chunk) s = .next t
      ∧ t.responsePort = some ([codeByte (decodeCode (decodeFrame chunk)), 0x01] ++ u16Bytes s.rxLen.toNat
          ++ decodeBody (decodeFrame chunk)))
  ∧ (∀ (s : State) (chunk : Bytes), chunk.length = 513 →
    ∃ t rest, exec (.feed chunk) s = .next t ∧ t.responsePort = some (0x21 :: 0x01 :: rest))
  ∧ (∃ (s t : State) (chunk rest : Bytes), BufferInv s ∧ chunk.head? = some 0x11
      ∧ exec (.feed chunk) s = .next t ∧ t.responsePort = some (0x01 :: 0x01 :: rest))

/-- A frame whose payloadLength passes 502 is never delivered: every FEED that reports FRAME reports a payloadLength of
at most 502, in any state (R142). The length field stands at bytes 9 and 10 of the response. -/
def Obligations.FeedNeverDeliversOversizeFrame : Prop :=
  ∀ (s t : State) (chunk rest : Bytes), exec (.feed chunk) s = .next t →
    t.responsePort = some (0x01 :: rest) →
    be16 (byteAt rest 8) (byteAt rest 9) ≤ 502 ∧ rest.length = 10 + be16 (byteAt rest 8) (byteAt rest 9)

/-- A header with a correct SOF whose length field claims more bytes than are present stays INCOMPLETE, whatever its lrc2
(R105, R145, R188): the bytes are kept and the response is INCOMPLETE. -/
def Obligations.FeedWaitsForClaimedLength : Prop :=
  ∀ (s : State) (v chunk : Bytes), validBytes s = .ok v → v.length + chunk.length ≤ 512 →
    9 ≤ (v ++ chunk).length → byteAt (v ++ chunk) 0 = 0x11 →
    (v ++ chunk).length < be16 (byteAt (v ++ chunk) 6) (byteAt (v ++ chunk) 7) + 10 →
    ∃ t, exec (.feed chunk) s = .next t ∧ t.responsePort = some [0x02, 0x00, 0x00, 0x00]
      ∧ validBytes t = .ok (v ++ chunk)

/-- An ENCODE response's frame, fed in one chunk to an empty buffer, is delivered with its command, status 0 and payload,
when its payload is at most 502 bytes. -/
def Obligations.EncodedFrameIsReceived : Prop :=
  ∀ (s : State) (command : Half) (p : Bytes), s.rxLen = 0 → p.length ≤ 502 →
    ∃ t, exec (.feed (build command 0 p)) s = .next t ∧ t.rxLen = 0
      ∧ t.responsePort = some ([0x01, 0x00, 0x00, 0x00, 0xEF] ++ u16Bytes command.toNat ++ [0x00, 0x00]
          ++ u16Bytes p.length ++ p)

/-- R139: RXRESET, in every state: OK and the old cursor, then the cursor 0, nothing else changed; its request is the one
byte 05 and nothing longer; on an empty buffer it changes nothing, and a second one reports 0. -/
def Obligations.RxresetEmptiesBuffer : Prop :=
  decodeRequest [0x05] = .ok .rxreset
  ∧ (∀ (b : Byte) (bs : Bytes), decodeRequest (0x05 :: b :: bs) = .error .malformed)
  ∧ (∀ s : State, exec .rxreset s
      = .next { s with rxLen := 0, responsePort := some ([0x00] ++ u16Bytes s.rxLen.toNat) })
  ∧ (∀ s : State, s.rxLen = 0 → exec .rxreset s = .next { s with responsePort := some [0x00, 0x00, 0x00] })
  ∧ (∀ s t : State, exec .rxreset s = .next t →
      exec .rxreset t = .next { t with responsePort := some [0x00, 0x00, 0x00] })
  ∧ (∀ s : State, s.rxLen = 6 → ∃ t, exec .rxreset s = .next t ∧ t.responsePort = some [0x00, 0x00, 0x06] ∧ t.rxLen = 0)

/-- R140: RXPEEK, whenever the valid bytes can be read: OK, the cursor and the valid bytes, at most 512, and nothing else
changes; its request is the one byte 06 and nothing longer; on an empty buffer it responds 00 00 00; a second one
answers the same. -/
def Obligations.RxpeekReportsValidBytes : Prop :=
  decodeRequest [0x06] = .ok .rxpeek
  ∧ (∀ (b : Byte) (bs : Bytes), decodeRequest (0x06 :: b :: bs) = .error .malformed)
  ∧ (∀ (s : State) (v : Bytes), validBytes s = .ok v →
      exec .rxpeek s = .next { s with responsePort := some ([0x00] ++ u16Bytes s.rxLen.toNat ++ v) }
      ∧ v.length = s.rxLen.toNat ∧ v.length ≤ 512)
  ∧ (∀ s : State, s.rxLen = 0 → exec .rxpeek s = .next { s with responsePort := some [0x00, 0x00, 0x00] })
  ∧ (∀ s t : State, exec .rxpeek s = .next t → exec .rxpeek t = .next t)
  ∧ (∀ s : State, validBytes s = .ok [0x00, 0x00, 0x00, 0x00, 0x29, 0x00] →
      exec .rxpeek s
        = .next { s with responsePort := some [0x00, 0x00, 0x06, 0x00, 0x00, 0x00, 0x00, 0x29, 0x00] })

/-- The model's own stops (log entries 1 and 2; no rule of the spec): in a state that holds a cursor above 512 RXPEEK stops
at the first index outside the buffer, and in one whose valid bytes include an unwritten one RXPEEK stops there, and
so does a FEED that does not overflow and does not write it. -/
def Obligations.BufferReadStops : Prop :=
  (∀ s : State, 512 < s.rxLen.toNat → (∀ k, k < 512 → ∃ b, readByte s.rxBuf k = .ok b) →
    exec .rxpeek s = .fault (.outsideBuffer 512))
  ∧ (∀ (s : State) (k : Nat), k < s.rxLen.toNat → k < 512 → (∀ j, j < k → ∃ b, readByte s.rxBuf j = .ok b) →
    Memory.find s.rxBuf k = none →
    exec .rxpeek s = .fault (.unwrittenByte k)
    ∧ ∀ chunk : Bytes, s.rxLen.toNat + chunk.length ≤ 512 → exec (.feed chunk) s = .fault (.unwrittenByte k))

/-! ## Whole-machine properties -/

/-- Every operation keeps the between-requests invariant of the buffer; FEED leaves the buffer empty or INCOMPLETE, RXRESET
leaves it empty, and the others change neither cursor nor bytes: the spec's own inference from R130, R134, R139 and
R140 (its R144, marked derived). -/
def Obligations.OperationsKeepBufferInvariant : Prop :=
  ∀ (i : Instr) (s : State), BufferInv s →
    ∃ t, exec i s = .next t ∧ BufferInv t
      ∧ ((∃ chunk, i = .feed chunk) → ∃ v, validBytes t = .ok v ∧ (t.rxLen = 0 ∨ decodeFrame v = .incomplete))
      ∧ (i = .rxreset → t.rxLen = 0)
      ∧ ((∀ chunk, i ≠ .feed chunk) → i ≠ .rxreset → t.rxLen = s.rxLen ∧ t.rxBuf = s.rxBuf)

/-- The invariant between requests is kept by every step, whatever is pending: the cursor at most 512 (R21), the valid
bytes empty or INCOMPLETE (R24), the response port idle (R31), the buffer's cells in canonical form. -/
def Obligations.StepKeepsInvariant : Prop :=
  ∀ s t : State, Inv s → step s = .next t → Inv t

/-- Reset: the cursor is 0 (R180) and the ports are idle, and the invariant holds. That no byte of the buffer is listed and
that the model's own fields start empty are the model's choices (log entries 1, 3, 4, 6, 7). -/
def Obligations.ResetMeetsInvariant : Prop :=
  Inv State.reset ∧ State.reset.rxLen = 0 ∧ State.reset.responsePort = none
    ∧ (∀ k, k < 512 → readByte State.reset.rxBuf k = .error (.unwrittenByte k))
    ∧ State.reset.requesters = [] ∧ State.reset.delivered = [] ∧ State.reset.turn = 0
    ∧ State.reset.resetIn = false

/-- The spec's own inference from R24 and R104 (its R25, marked derived): with 9 or more valid bytes the first is 0x11 and they are fewer than the claimed frame; fewer than 9 can be
anything: any such bytes fed to an empty buffer are held. -/
def Obligations.BufferFactsBetweenRequests : Prop :=
  (∀ (s : State) (v : Bytes), BufferInv s → validBytes s = .ok v → 9 ≤ s.rxLen.toNat →
    byteAt v 0 = 0x11 ∧ s.rxLen.toNat < be16 (byteAt v 6) (byteAt v 7) + 10)
  ∧ (∀ (s : State) (v : Bytes), BufferInv s → s.rxLen = 0 → v.length < 9 →
    ∃ t, exec (.feed v) s = .next t ∧ BufferInv t ∧ validBytes t = .ok v ∧ t.rxLen.toNat = v.length)

/-- R160: the codes each operation produces, with the state effect of each, in every state from which it answers; and the
responses to requests that are no operation. -/
def Obligations.ResultCodesAndEffects : Prop :=
  (∀ (d : Bytes) (s t : State), exec (.lrc d) s = .next t →
    (∃ r, t.responsePort = some (0x00 :: r)) ∧ t.rxLen = s.rxLen ∧ t.rxBuf = s.rxBuf)
  ∧ (∀ (c : Half) (p : Bytes) (s t : State), exec (.encode c p) s = .next t →
    ((∃ r, t.responsePort = some (0x00 :: r)) ∨ t.responsePort = some [0x20]) ∧ t.rxLen = s.rxLen ∧ t.rxBuf = s.rxBuf)
  ∧ (∀ (d : Bytes) (s t : State), exec (.decode d) s = .next t →
    (∃ c r, t.responsePort = some (c :: r) ∧ c ∈ ([0x01, 0x02, 0x10, 0x11, 0x12] : Bytes))
    ∧ t.rxLen = s.rxLen ∧ t.rxBuf = s.rxBuf)
  ∧ (∀ (d : Bytes) (s t : State), exec (.feed d) s = .next t →
    ∃ c r, t.responsePort = some (c :: r)
      ∧ ((c ∈ ([0x01, 0x10, 0x11, 0x12, 0x21] : Bytes) ∧ t.rxLen = 0)
        ∨ (c = 0x02 ∧ t.rxLen.toNat = feedStart s d + d.length)))
  ∧ (∀ s t : State, exec .rxreset s = .next t → ∃ r, t.responsePort = some (0x00 :: r))
  ∧ (∀ s t : State, exec .rxpeek s = .next t → (∃ r, t.responsePort = some (0x00 :: r)) ∧ t.rxLen = s.rxLen ∧ t.rxBuf = s.rxBuf)
  ∧ (∀ (req : Bytes) (s : State), decodeRequest req = .error .illegalOp →
    perform req s = .next { s with responsePort := some [0x30] })
  ∧ (∀ (req : Bytes) (s : State), decodeRequest req = .error .malformed →
    perform req s = .next { s with responsePort := some [0x31] })

/-- FEEDs interleaved with the other requesters' requests act as the reassembler over the plain byte list, chunk after
chunk: with a single writer (R187), whatever the schedule and whatever else the other requesters present, all pending
requests are answered in as many steps, and the writer's responses and the valid bytes in the end are those of its
chunks alone (R41, R45, R49, R50). The queues, that every step takes a pending request, and the list of delivered
responses are the model's choices (log entries 3, 4 and 7). -/
def Obligations.InterleavedFeedsRefineByteList : Prop :=
  ∀ (s : State) (r : Nat) (v : Bytes) (chunks : List Bytes), Inv s → SingleWriter r chunks s → validBytes s = .ok v →
    ∃ t, core.run (pendingCount s) s = .next t ∧ Inv t ∧ pendingCount t = 0
      ∧ validBytes t = .ok (listFeeds v chunks).1
      ∧ responsesTo r t.delivered = responsesTo r s.delivered ++ (listFeeds v chunks).2

/-- The split property (R141, which the spec marks as its own inference from R131, R133, R134 and R104): a well-formed frame of at most 512 bytes, fed to an empty buffer in contiguous chunks of any
lengths, with no other FEED or RXRESET interleaved and any other requests interleaved by any schedule, is answered
INCOMPLETE until the chunk that completes it, FRAME with the frame's fields there, and INCOMPLETE for the empty chunks
after it; the buffer is then empty. The queues, the number of steps and the list of delivered responses are the model's
choices (log entries 3, 4 and 7). -/
def Obligations.SplitFrameIsDeliveredOnce : Prop :=
  ∀ (s : State) (r : Nat) (f last : Bytes) (before after : List Bytes),
    wellFormedFrame f = true → f.length ≤ 512 → Inv s → s.rxLen = 0 →
    before.flatten ++ last = f → last ≠ [] → (∀ c ∈ after, c = []) →
    SingleWriter r (before ++ last :: after) s →
    ∃ t, core.run (pendingCount s) s = .next t ∧ pendingCount t = 0 ∧ t.rxLen = 0 ∧ Inv t
      ∧ responsesTo r t.delivered = responsesTo r s.delivered
          ++ (List.replicate before.length [0x02, 0x00, 0x00, 0x00]
            ++ [[0x01, 0x00, 0x00, 0x00] ++ slice f 1 8 ++ slice f 9 (f.length - 1)]
            ++ List.replicate after.length [0x02, 0x00, 0x00, 0x00])

/-- The garbage property (R143, which the spec marks as its own inference from R134 and R104): bytes whose first is not 0x11, fed to an empty buffer in any chunks without overflow, with
no other FEED or RXRESET interleaved, are answered INCOMPLETE until the chunk that brings the buffer to 9 bytes or
more, and BAD_SOF there, with the buffer emptied; no frame is emitted up to that FEED. That the property ends there is
the model's reading (log entry 11); the queues, the number of steps and the list of delivered responses are the model's
choices (log entries 3, 4 and 7). -/
def Obligations.GarbageIsReportedOnce : Prop :=
  ∀ (s : State) (r : Nat) (last : Bytes) (before : List Bytes),
    Inv s → s.rxLen = 0 → before.flatten.length < 9 → 9 ≤ (before.flatten ++ last).length →
    (before.flatten ++ last).length ≤ 512 → byteAt (before.flatten ++ last) 0 ≠ 0x11 →
    SingleWriter r (before ++ [last]) s →
    ∃ t, core.run (pendingCount s) s = .next t ∧ pendingCount t = 0 ∧ t.rxLen = 0 ∧ Inv t
      ∧ responsesTo r t.delivered = responsesTo r s.delivered
          ++ (List.replicate before.length [0x02, 0x00, 0x00, 0x00] ++ [[0x10, 0x00, 0x00, 0x00]])

/-- Stale bytes are unobservable (R23, R46): two states with the same cursor, valid bytes, ports and requesters run alike
for any number of steps: the same responses, the same cursor, the same valid bytes. -/
def Obligations.StaleBytesUnobservable : Prop :=
  ∀ s s' : State, Inv s → Inv s' → SameView s s' →
    ∀ n, ∃ t t', core.run n s = .next t ∧ core.run n s' = .next t' ∧ SameView t t'

/-- No sequence of requests tells the state RXRESET leaves from the reset state: from both, with the same requests pending,
every run of any length delivers the same responses and leaves the same cursor and valid bytes. The spec's own
inference from R181, R139 and R23 (its R183, marked derived); that the reset input keeps the pending requests is the
model's choice (log entry 6). -/
def Obligations.RxresetIndistinguishableFromReset : Prop :=
  ∀ s : State, BufferInv s → s.resetIn = false →
    ∃ t, exec .rxreset s = .next t
      ∧ ∀ n, ∃ u u', core.run n { t with responsePort := none } = .next u ∧ core.run n (takeReset s) = .next u'
          ∧ SameView u u'

/-- From a state with the invariant no run of any length faults or is refused: malformed input, errors and overflows
included (R166, R193). -/
def Obligations.RunsNeverStop : Prop :=
  ∀ s : State, Inv s → NeverStops s

/-! ## Requests (spec/30_encoding.md) -/

/-- Decode and encode agree: every well-formed instruction is what its request decodes to. -/
def Obligations.DecodeOfEncode : Prop :=
  ∀ i : Instr, i.wellFormed = true → decodeRequest (encodeRequest i) = .ok i

/-- Encode and decode agree the other way: a request that decodes is the only one of its instruction, which is
well-formed. -/
def Obligations.EncodeOfDecode : Prop :=
  ∀ (req : Bytes) (i : Instr), decodeRequest req = .ok i → encodeRequest i = req ∧ i.wellFormed = true

/-- Words written out from the spec's formats and test vectors decode to their instructions. -/
def Obligations.SampleRequestsDecode : Prop :=
  decodeRequest [0x01, 0x00, 0x00, 0x02, 0x02, 0x03] = .ok (.lrc [0x02, 0x03])
  ∧ decodeRequest [0x02, 0x03, 0xE8, 0x00, 0x00, 0x01, 0xFF] = .ok (.encode 1000 [0xFF])
  ∧ decodeRequest [0x03, 0x00, 0x00, 0x03, 0x00, 0x01, 0x02] = .ok (.decode [0x00, 0x01, 0x02])
  ∧ decodeRequest [0x04, 0x00, 0x00, 0x03, 0x11, 0xEF, 0x03] = .ok (.feed [0x11, 0xEF, 0x03])
  ∧ decodeRequest [0x05] = .ok .rxreset
  ∧ decodeRequest [0x06] = .ok .rxpeek

/-- R69: the operation map: the header byte, all eight bits of it, selects the operation, and the operation its format. -/
def Obligations.OperationMap : Prop :=
  (∀ h : Byte, opOfHeader h =
    if h = 0x01 then some .lrc else if h = 0x02 then some .encode else if h = 0x03 then some .decode
    else if h = 0x04 then some .feed else if h = 0x05 then some .rxreset else if h = 0x06 then some .rxpeek else none)
  ∧ formatOf .lrc = .reqData ∧ formatOf .encode = .reqEnc ∧ formatOf .decode = .reqData ∧ formatOf .feed = .reqData
  ∧ formatOf .rxreset = .reqNone ∧ formatOf .rxpeek = .reqNone

/-- R70: the illegal headers are those with a nonzero high nibble or an op of 0 or 7 to 15, that is 00 and 07 to FF; each is
answered ILLEGAL_OP, whatever follows it, with the state unchanged. -/
def Obligations.IllegalHeaderAnswered : Prop :=
  ∀ (h : Byte) (body : Bytes),
    ((h.extractLsb' 4 4 ≠ 0 ∨ h.extractLsb' 0 4 = 0 ∨ 7 ≤ (h.extractLsb' 0 4).toNat) ↔ (h = 0 ∨ 7 ≤ h.toNat))
    ∧ ((h = 0 ∨ 7 ≤ h.toNat) →
        ∀ s : State, perform (h :: body) s = .next { s with responsePort := some [0x30] })
    ∧ (1 ≤ h.toNat ∧ h.toNat ≤ 6 → decodeRequest (h :: body) ≠ .error .illegalOp)

/-- R71: the empty request, and a request with a legal header whose length is short of its fixed part or differs from the
fixed part plus `N`, is answered MALFORMED with the state unchanged; any other request with a legal header decodes;
an illegal header is ILLEGAL_OP before its length is looked at. -/
def Obligations.MalformedRequestAnswered : Prop :=
  (∀ s : State, perform [] s = .next { s with responsePort := some [0x31] })
  ∧ (∀ (h : Byte) (body : Bytes), h = 0 ∨ 7 ≤ h.toNat → decodeRequest (h :: body) = .error .illegalOp)
  ∧ (∀ req : Bytes, byteAt req 0 = 0x01 ∨ byteAt req 0 = 0x03 ∨ byteAt req 0 = 0x04 →
      if req.length < 4 ∨ req.length ≠ 4 + be24 (byteAt req 1) (byteAt req 2) (byteAt req 3) then
        ∀ s : State, perform req s = .next { s with responsePort := some [0x31] }
      else ∃ i, decodeRequest req = .ok i)
  ∧ (∀ req : Bytes, byteAt req 0 = 0x02 →
      if req.length < 6 ∨ req.length ≠ 6 + be24 (byteAt req 3) (byteAt req 4) (byteAt req 5) then
        ∀ s : State, perform req s = .next { s with responsePort := some [0x31] }
      else ∃ i, decodeRequest req = .ok i)
  ∧ (∀ req : Bytes, byteAt req 0 = 0x05 ∨ byteAt req 0 = 0x06 →
      if req.length ≠ 1 then ∀ s : State, perform req s = .next { s with responsePort := some [0x31] }
      else ∃ i, decodeRequest req = .ok i)

/-- R77's own example, and a FEED line with a repeated byte and a comment, assemble to the requests of R67 to R69. -/
def Obligations.AssemblerExample : Prop :=
  assembleLine "ENCODE 1000, []".toList = some [0x02, 0x03, 0xE8, 0x00, 0x00, 0x00]
  ∧ assembleLine "FEED [11 EF 00*3] ; a chunk".toList = some [0x04, 0x00, 0x00, 0x05, 0x11, 0xEF, 0x00, 0x00, 0x00]
  ∧ assembleLine "RXPEEK".toList = some [0x06]

/-! ## Steps (spec/20_memory.md R49, R50; spec/70_reset_and_hazards.md) -/

/-- A step runs the decoded instruction: when the request the block takes decodes to `i`, the step is `exec` of `i` at the
state without that request, with the response it puts on the port delivered to the request's requester and the port
idle again. With one requester the request taken is its oldest, and the counter `turn` advances by one. The list of
delivered responses and the counter are the model's choices (log entries 7 and 4). -/
def Obligations.StepRunsDecodedRequest : Prop :=
  (∀ (s taken t : State) (r : Nat) (req b : Bytes) (i : Instr), s.resetIn = false →
    acceptRequest s = some (r, req, taken) → decodeRequest req = .ok i → exec i taken = .next t →
    t.responsePort = some b →
    step s = .next { t with responsePort := none, delivered := t.delivered ++ [(r, b)] })
  ∧ (∀ (s taken : State) (r : Nat) (req : Bytes) (i : Instr), s.resetIn = false →
    acceptRequest s = some (r, req, taken) → decodeRequest req = .ok i →
    step s = finishFor r (exec i taken))
  ∧ (∀ (s : State) (req : Bytes) (rest : List Bytes), s.requesters = [req :: rest] →
    acceptRequest s = some (0, req, { s with requesters := [rest], turn := s.turn + 1 }))

/-- The request a step takes is the oldest of a requester that has one, for every schedule (R49, R50): that requester
loses it, every other requester keeps its own, and apart from these queues only the counter `turn` changes, which
advances by one. None is taken only when none is pending. The counter, and taking a request whenever one is pending,
are the model's choices (log entry 4), and so are the queues (log entry 3). -/
def Obligations.TakesOldestOfSomeRequester : Prop :=
  (∀ (s taken : State) (r : Nat) (req : Bytes), acceptRequest s = some (r, req, taken) →
    ∃ rest, s.requesters[r]? = some (req :: rest)
      ∧ taken = { s with requesters := s.requesters.set r rest, turn := s.turn + 1 })
  ∧ (∀ s : State, acceptRequest s = none ↔ ∀ q ∈ s.requesters, q = [])

/-- Progress (R193): with the invariant and a request pending, a step answers exactly one request with exactly one
response, delivered to a requester, and leaves the port idle. That it takes one in this very step, and the list of
delivered responses, are the model's choices (log entries 4 and 7). -/
def Obligations.EachStepAnswersOneRequest : Prop :=
  ∀ s : State, Inv s → s.resetIn = false → 0 < pendingCount s →
    ∃ t r b, step s = .next t ∧ t.delivered = s.delivered ++ [(r, b)] ∧ b ≠ []
      ∧ pendingCount t + 1 = pendingCount s ∧ t.responsePort = none ∧ t.resetIn = false

/-- With no request pending and the reset input released the block waits: nothing changes (R182; that waiting is a step of
its own is the model's choice, log entry 5). -/
def Obligations.IdleStepChangesNothing : Prop :=
  ∀ s : State, s.resetIn = false → pendingCount s = 0 → step s = .next s

/-- The reset input (R180): the cursor is 0 and no response is pending. R180 calls the bytes of the buffer only
unspecified: that none is listed afterwards, so that reading any faults as `unwrittenByte`, is the model's choice (log
entry 1). That the input lands between requests, is then released, and leaves what the requesters hold, the delivered
responses and the counter alone is the model's choice (log entry 6). -/
def Obligations.ResetInputEmptiesBuffer : Prop :=
  ∀ s : State, s.resetIn = true →
    ∃ t, step s = .next t ∧ t.rxLen = 0 ∧ t.responsePort = none ∧ t.resetIn = false
      ∧ t.rxBuf = State.reset.rxBuf
      ∧ (∀ k, k < 512 → readByte t.rxBuf k = .error (.unwrittenByte k))
      ∧ t.requesters = s.requesters ∧ t.delivered = s.delivered ∧ t.turn = s.turn
end

