-- ==== Sys2Proof/Laws/Operands.lean ====
section
/-! SUPPORT. Big-endian assembly and its inverse, indexing and slicing. -/

namespace Sys2Proof.Machine

@[simp] theorem length_u16Bytes (v : Nat) : (u16Bytes v).length = 2 := rfl
@[simp] theorem length_u24Bytes (v : Nat) : (u24Bytes v).length = 3 := rfl

theorem be16_lt (hi lo : Byte) : be16 hi lo < 65536 := by
  have := hi.isLt; have := lo.isLt; unfold be16; omega

theorem be24_lt (a b c : Byte) : be24 a b c < 16777216 := by
  have := a.isLt; have := b.isLt; have := c.isLt; unfold be24; omega

/-- Assembling the two bytes of a 16-bit value gives it back. -/
theorem be16_split {v : Nat} (h : v < 65536) : be16 (BitVec.ofNat 8 (v / 256)) (BitVec.ofNat 8 v) = v := by
  simp only [be16, BitVec.toNat_ofNat]; omega

/-- Assembling the three bytes of a 24-bit value gives it back. -/
theorem be24_split {v : Nat} (h : v < 16777216) :
    be24 (BitVec.ofNat 8 (v / 65536)) (BitVec.ofNat 8 (v / 256)) (BitVec.ofNat 8 v) = v := by
  simp only [be24, BitVec.toNat_ofNat]; omega

/-- Splitting an assembled 16-bit value gives its two bytes back. -/
theorem u16Bytes_be16 (hi lo : Byte) : u16Bytes (be16 hi lo) = [hi, lo] := by
  have h₁ := hi.isLt; have h₂ := lo.isLt
  simp only [u16Bytes, be16, List.cons.injEq, and_true]
  constructor <;> apply BitVec.eq_of_toNat_eq <;> simp only [BitVec.toNat_ofNat] <;> omega

/-- Splitting an assembled 24-bit value gives its three bytes back. -/
theorem u24Bytes_be24 (a b c : Byte) : u24Bytes (be24 a b c) = [a, b, c] := by
  have h₁ := a.isLt; have h₂ := b.isLt; have h₃ := c.isLt
  simp only [u24Bytes, be24, List.cons.injEq, and_true]
  refine ⟨?_, ?_, ?_⟩ <;> apply BitVec.eq_of_toNat_eq <;> simp only [BitVec.toNat_ofNat] <;> omega

@[simp] theorem toNat_halfOf (hi lo : Byte) : (halfOf hi lo).toNat = be16 hi lo := by
  simp only [halfOf, BitVec.toNat_ofNat]
  exact Nat.mod_eq_of_lt (be16_lt hi lo)

/-- A 16-bit field's bytes assemble to it. -/
theorem halfOf_split (v : Half) : halfOf (BitVec.ofNat 8 (v.toNat / 256)) (BitVec.ofNat 8 v.toNat) = v := by
  apply BitVec.eq_of_toNat_eq
  rw [toNat_halfOf, be16_split v.isLt]

theorem byteAt_append_left {s t : Bytes} {i : Nat} (h : i < s.length) : byteAt (s ++ t) i = byteAt s i := by
  simp only [byteAt, List.getD_eq_getElem?_getD, List.getElem?_append_left h]

theorem byteAt_append_right {s t : Bytes} {i : Nat} (h : s.length ≤ i) :
    byteAt (s ++ t) i = byteAt t (i - s.length) := by
  simp only [byteAt, List.getD_eq_getElem?_getD, List.getElem?_append_right h]

theorem slice_append_left {s t : Bytes} {i j : Nat} (h : j ≤ s.length) : slice (s ++ t) i j = slice s i j := by
  rcases Nat.le_total i j with hij | hij
  · unfold slice
    rw [List.drop_append_of_le_length (le_trans hij h), List.take_append_of_le_length]
    rw [List.length_drop]; omega
  · simp only [slice, Nat.sub_eq_zero_of_le hij, List.take_zero]

theorem length_slice {s : Bytes} {i j : Nat} (h : j ≤ s.length) : (slice s i j).length = j - i := by
  simp only [slice, List.length_take, List.length_drop]; omega

theorem byteAt_take {s : Bytes} {i n : Nat} (h : i < n) : byteAt (s.take n) i = byteAt s i := by
  simp only [byteAt, List.getD_eq_getElem?_getD, List.getElem?_take_of_lt h]

theorem slice_take {s : Bytes} {i j n : Nat} (h : j ≤ n) : slice (s.take n) i j = slice s i j := by
  simp only [slice, List.drop_take, List.take_take]
  congr 1; omega

end Sys2Proof.Machine
end

