-- ==== Sys2Proof/Laws/State.lean ====
section
/-! SUPPORT. What each update of the state does to each field: one lemma per field per update, true by rfl, so that no
later proof unfolds a record update. -/

namespace Sys2Proof.Machine

variable (s : State) (r : Bytes) (c : ResultCode) (chunk : Bytes)

/-! ## emptyBuffer -/

@[simp] theorem emptyBuffer_rxLen : (emptyBuffer s).rxLen = 0 := rfl
@[simp] theorem emptyBuffer_rxBuf : (emptyBuffer s).rxBuf = s.rxBuf := rfl
@[simp] theorem emptyBuffer_responsePort : (emptyBuffer s).responsePort = s.responsePort := rfl
@[simp] theorem emptyBuffer_resetIn : (emptyBuffer s).resetIn = s.resetIn := rfl
@[simp] theorem emptyBuffer_requesters : (emptyBuffer s).requesters = s.requesters := rfl
@[simp] theorem emptyBuffer_delivered : (emptyBuffer s).delivered = s.delivered := rfl
@[simp] theorem emptyBuffer_turn : (emptyBuffer s).turn = s.turn := rfl

/-! ## appendChunk -/

@[simp] theorem appendChunk_rxLen :
    (appendChunk chunk s).rxLen = BitVec.ofNat 10 (s.rxLen.toNat + chunk.length) := rfl
@[simp] theorem appendChunk_rxBuf : (appendChunk chunk s).rxBuf = memWrite s.rxBuf s.rxLen.toNat chunk := rfl
@[simp] theorem appendChunk_responsePort : (appendChunk chunk s).responsePort = s.responsePort := rfl
@[simp] theorem appendChunk_resetIn : (appendChunk chunk s).resetIn = s.resetIn := rfl
@[simp] theorem appendChunk_requesters : (appendChunk chunk s).requesters = s.requesters := rfl
@[simp] theorem appendChunk_delivered : (appendChunk chunk s).delivered = s.delivered := rfl
@[simp] theorem appendChunk_turn : (appendChunk chunk s).turn = s.turn := rfl

/-! ## respond -/

@[simp] theorem respond_rxLen : (respond r s).rxLen = s.rxLen := rfl
@[simp] theorem respond_rxBuf : (respond r s).rxBuf = s.rxBuf := rfl
@[simp] theorem respond_responsePort : (respond r s).responsePort = some r := rfl
@[simp] theorem respond_resetIn : (respond r s).resetIn = s.resetIn := rfl
@[simp] theorem respond_requesters : (respond r s).requesters = s.requesters := rfl
@[simp] theorem respond_delivered : (respond r s).delivered = s.delivered := rfl
@[simp] theorem respond_turn : (respond r s).turn = s.turn := rfl
@[simp] theorem validBytes_respond : validBytes (respond r s) = validBytes s := rfl

/-- Raising an error is its one-byte response and nothing else. -/
@[simp] theorem raiseError_eq_respond : raiseError c s = respond [codeByte c] s := rfl

/-! ## takeReset -/

@[simp] theorem takeReset_rxLen : (takeReset s).rxLen = 0 := rfl
@[simp] theorem takeReset_rxBuf : (takeReset s).rxBuf = [] := rfl
@[simp] theorem takeReset_responsePort : (takeReset s).responsePort = none := rfl
@[simp] theorem takeReset_resetIn : (takeReset s).resetIn = false := rfl
@[simp] theorem takeReset_requesters : (takeReset s).requesters = s.requesters := rfl
@[simp] theorem takeReset_delivered : (takeReset s).delivered = s.delivered := rfl
@[simp] theorem takeReset_turn : (takeReset s).turn = s.turn := rfl

/-! ## deliverTo -/

/-- With a response on the port, delivery moves it to its requester. -/
theorem deliverTo_of_response {s : State} {b : Bytes} (h : s.responsePort = some b) (k : Nat) :
    deliverTo k s = { s with responsePort := none, delivered := s.delivered ++ [(k, b)] } := by
  simp only [deliverTo, h]

@[simp] theorem deliverTo_respond (k : Nat) :
    deliverTo k (respond r s) = { s with responsePort := none, delivered := s.delivered ++ [(k, r)] } := rfl

theorem deliverTo_rxLen (k : Nat) : (deliverTo k s).rxLen = s.rxLen := by
  unfold deliverTo; split <;> rfl
theorem deliverTo_rxBuf (k : Nat) : (deliverTo k s).rxBuf = s.rxBuf := by
  unfold deliverTo; split <;> rfl
theorem deliverTo_responsePort (k : Nat) : (deliverTo k s).responsePort = none := by
  unfold deliverTo; split
  · assumption
  · rfl
theorem deliverTo_resetIn (k : Nat) : (deliverTo k s).resetIn = s.resetIn := by
  unfold deliverTo; split <;> rfl
theorem deliverTo_requesters (k : Nat) : (deliverTo k s).requesters = s.requesters := by
  unfold deliverTo; split <;> rfl
theorem deliverTo_turn (k : Nat) : (deliverTo k s).turn = s.turn := by
  unfold deliverTo; split <;> rfl

/-! ## The valid bytes depend on the cursor and the buffer alone -/

theorem validBytes_congr {s t : State} (hl : t.rxLen = s.rxLen) (hb : t.rxBuf = s.rxBuf) :
    validBytes t = validBytes s := by
  simp only [validBytes, hl, hb]

end Sys2Proof.Machine
end

