-- ==== Sys2Proof/Laws/Codec.lean ====
section
/-! SUPPORT. The codec's functions: the byte sum, the builder's parts, and, once, everything the frame decoder can
answer. -/

namespace Sys2Proof.Machine

theorem byteSum_append (s t : Bytes) : byteSum (s ++ t) = byteSum s + byteSum t := by
  induction s with
  | nil => simp [byteSum]
  | cons b bs ih => simp only [List.cons_append, byteSum, ih]; omega

theorem byteSum_eq_sum (s : Bytes) : byteSum s = (s.map BitVec.toNat).sum := by
  induction s with
  | nil => rfl
  | cons b bs ih => simp only [byteSum, List.map_cons, List.sum_cons, ih]

/-- The checksum's value (R100). -/
theorem toNat_lrc (s : Bytes) : (lrc s).toNat = (256 - byteSum s % 256) % 256 := by
  simp only [lrc, BitVec.toNat_ofNat]; omega

@[simp] theorem length_hdr6 (c st : Half) (n : Nat) : (hdr6 c st n).length = 6 := rfl

theorem length_build (c st : Half) (p : Bytes) : (build c st p).length = p.length + 10 := by
  simp only [build, List.length_append, List.length_cons, List.length_nil, length_hdr6]; omega

/-- The bytes of a built frame, one by one (R60). -/
theorem build_eq (c st : Half) (p : Bytes) :
    build c st p = Config.sof :: Config.lrc1Tx :: BitVec.ofNat 8 (c.toNat / 256) :: BitVec.ofNat 8 c.toNat
      :: BitVec.ofNat 8 (st.toNat / 256) :: BitVec.ofNat 8 st.toNat
      :: BitVec.ofNat 8 (p.length / 256) :: BitVec.ofNat 8 p.length
      :: lrc (hdr6 c st p.length) :: (p ++ [lrc p]) := rfl

theorem lengthField_lt (s : Bytes) : lengthField s < 65536 := be16_lt _ _

theorem frameLength_eq (s : Bytes) : frameLength s = lengthField s + 10 := by
  simp only [frameLength, Config.hdr, Config.trl]; omega

/-- Everything `decodeFrame` can answer, with the conditions of each (R104). -/
theorem decodeFrame_cases (s : Bytes) :
    (s.length < 9 ∧ decodeFrame s = .incomplete)
    ∨ (9 ≤ s.length ∧ byteAt s 0 ≠ 0x11 ∧ decodeFrame s = .invalid .badSof)
    ∨ (9 ≤ s.length ∧ byteAt s 0 = 0x11 ∧ s.length < lengthField s + 10 ∧ decodeFrame s = .incomplete)
    ∨ (lengthField s + 10 ≤ s.length ∧ byteAt s 0 = 0x11 ∧ byteAt s 8 ≠ lrc (slice s 2 8)
        ∧ decodeFrame s = .invalid .lrc2)
    ∨ (lengthField s + 10 ≤ s.length ∧ byteAt s 0 = 0x11 ∧ byteAt s 8 = lrc (slice s 2 8)
        ∧ byteAt s (9 + lengthField s) ≠ lrc (slice s 9 (9 + lengthField s)) ∧ decodeFrame s = .invalid .lrc3)
    ∨ (lengthField s + 10 ≤ s.length ∧ byteAt s 0 = 0x11 ∧ byteAt s 8 = lrc (slice s 2 8)
        ∧ byteAt s (9 + lengthField s) = lrc (slice s 9 (9 + lengthField s)) ∧ decodeFrame s = .frame (frameFields s)) := by
  simp only [decodeFrame, frameLength_eq, Config.hdr, Config.sof]
  by_cases h1 : s.length < 9
  · exact .inl ⟨h1, if_pos h1⟩
  rw [if_neg h1]
  by_cases h2 : byteAt s 0 ≠ 0x11
  · exact .inr (.inl ⟨by omega, h2, if_pos h2⟩)
  rw [if_neg h2]
  have h2' : byteAt s 0 = 0x11 := not_not.mp h2
  by_cases h3 : s.length < lengthField s + 10
  · exact .inr (.inr (.inl ⟨by omega, h2', h3, if_pos h3⟩))
  rw [if_neg h3]
  by_cases h4 : byteAt s 8 ≠ lrc (slice s 2 8)
  · exact .inr (.inr (.inr (.inl ⟨by omega, h2', h4, if_pos h4⟩)))
  rw [if_neg h4]
  have h4' := not_not.mp h4
  by_cases h5 : byteAt s (9 + lengthField s) ≠ lrc (slice s 9 (9 + lengthField s))
  · exact .inr (.inr (.inr (.inr (.inl ⟨by omega, h2', h4', h5, if_pos h5⟩))))
  · rw [if_neg h5]
    exact .inr (.inr (.inr (.inr (.inr ⟨by omega, h2', h4', not_not.mp h5, rfl⟩))))

/-- A FRAME answer carries the fields of the frame at the front, which is all there. -/
theorem decodeFrame_eq_frame {s : Bytes} {f : Frame} (h : decodeFrame s = .frame f) :
    lengthField s + 10 ≤ s.length ∧ f = frameFields s := by
  rcases decodeFrame_cases s with ⟨-, e⟩ | ⟨-, -, e⟩ | ⟨-, -, -, e⟩ | ⟨-, -, -, e⟩ | ⟨-, -, -, -, e⟩ | ⟨hl, -, -, -, e⟩
  all_goals rw [e] at h; cases h
  exact ⟨hl, rfl⟩

/-- The FRAME body of the frame at the front of `s`: its bytes 1 to 7 and its payload (R74). -/
theorem frameBody_frameFields (s : Bytes) :
    frameBody (frameFields s)
      = [byteAt s 1, byteAt s 2, byteAt s 3, byteAt s 4, byteAt s 5, byteAt s 6, byteAt s 7]
        ++ slice s 9 (9 + lengthField s) := by
  simp only [frameBody, frameFields, toNat_halfOf, u16Bytes_be16]
  rfl

end Sys2Proof.Machine
end

