-- ==== Sys2Proof/Laws/Memory.lean ====
section
/-! SUPPORT. The buffer's laws: a read after a write, the bytes a write leaves alone, and that every memory operation
keeps the canonical form. -/

namespace Sys2Proof.Machine

theorem find_writeByte_self (m : Memory) (i : Nat) (b : Byte) : Memory.find (writeByte m i b) i = some b := by
  induction m with
  | nil => simp [writeByte, Memory.find]
  | cons cell rest ih =>
    obtain ⟨a, c⟩ := cell
    unfold writeByte
    split
    · simp [Memory.find]
    · split
      · simp [Memory.find]
      · rename_i _ hne
        simp only [Memory.find, if_neg (Ne.symm hne)]
        exact ih

theorem find_writeByte_other (m : Memory) {i k : Nat} (b : Byte) (h : k ≠ i) :
    Memory.find (writeByte m i b) k = Memory.find m k := by
  induction m with
  | nil => simp [writeByte, Memory.find, Ne.symm h]
  | cons cell rest ih =>
    obtain ⟨a, c⟩ := cell
    unfold writeByte
    split
    · simp [Memory.find, Ne.symm h]
    · split
      · rename_i heq; subst heq
        simp [Memory.find, Ne.symm h]
      · simp only [Memory.find, ih]

/-- Reading the byte just written. -/
theorem readByte_writeByte_self (m : Memory) {i : Nat} (b : Byte) (h : i < Config.cap) :
    readByte (writeByte m i b) i = .ok b := by
  simp only [readByte, if_pos h, find_writeByte_self]

/-- A byte write leaves every other index alone. -/
theorem readByte_writeByte_other (m : Memory) {i k : Nat} (b : Byte) (h : k ≠ i) :
    readByte (writeByte m i b) k = readByte m k := by
  simp only [readByte, find_writeByte_other m b h]

/-- `MemWrite` leaves every index outside its range alone. -/
theorem readByte_memWrite_outside (m : Memory) (i : Nat) (s : Bytes) {k : Nat} (h : k < i ∨ i + s.length ≤ k) :
    readByte (memWrite m i s) k = readByte m k := by
  induction s generalizing m i with
  | nil => rfl
  | cons b bs ih =>
    rw [List.length_cons] at h
    unfold memWrite
    rw [ih _ _ (by omega), readByte_writeByte_other _ _ (by omega)]

/-- `MemWrite` writes its bytes in order. -/
theorem readByte_memWrite_inside (m : Memory) (i : Nat) (s : Bytes) {j : Nat} (hj : j < s.length)
    (hcap : i + j < Config.cap) : readByte (memWrite m i s) (i + j) = .ok s[j] := by
  induction s generalizing m i j with
  | nil => simp at hj
  | cons b bs ih =>
    unfold memWrite
    cases j with
    | zero =>
      rw [readByte_memWrite_outside _ _ _ (by omega)]
      exact readByte_writeByte_self _ _ hcap
    | succ j =>
      have hj' : j < bs.length := by simpa using hj
      have := ih (writeByte m i b) (i + 1) hj' (by omega)
      rw [show i + (j + 1) = i + 1 + j by omega]
      simpa using this

/-- `MemRead` answers exactly when each of its bytes reads, with those bytes. -/
theorem memRead_eq_ok (m : Memory) (i n : Nat) (v : Bytes) :
    memRead m i n = .ok v ↔ v.length = n ∧ ∀ j (hj : j < v.length), readByte m (i + j) = .ok v[j] := by
  induction n generalizing i v with
  | zero =>
    constructor
    · intro h
      have : v = [] := by simpa [memRead] using h.symm
      subst this; simp
    · rintro ⟨h, -⟩
      have : v = [] := List.length_eq_zero_iff.mp h
      subst this; rfl
  | succ n ih =>
    unfold memRead
    constructor
    · intro h
      cases hb : readByte m i with
      | error f => rw [hb] at h; cases h
      | ok b =>
        rw [hb] at h
        cases hr : memRead m (i + 1) n with
        | error f => simp only [hr] at h; cases h
        | ok bs =>
          simp only [hr] at h
          cases h
          obtain ⟨hl, hall⟩ := (ih (i + 1) bs).mp hr
          refine ⟨by simp [hl], fun j hj => ?_⟩
          cases j with
          | zero => simpa using hb
          | succ j =>
            have := hall j (by simpa using hj)
            rw [show i + (j + 1) = i + 1 + j by omega]
            simpa using this
    · rintro ⟨hl, hall⟩
      cases v with
      | nil => simp at hl
      | cons b bs =>
        have hb := hall 0 (by simp)
        simp only [Nat.add_zero, List.getElem_cons_zero] at hb
        rw [hb]
        have hr : memRead m (i + 1) n = .ok bs := by
          refine (ih (i + 1) bs).mpr ⟨by simpa using hl, fun j hj => ?_⟩
          have := hall (j + 1) (by simpa using hj)
          rw [show i + (j + 1) = i + 1 + j by omega] at this
          simpa using this
        simp only [hr]

/-- A read that answers stays inside the buffer. -/
theorem readByte_ok_lt {m : Memory} {i : Nat} {b : Byte} (h : readByte m i = .ok b) : i < Config.cap := by
  unfold readByte at h
  split at h
  · assumption
  · cases h

/-- Appending `s` behind `v`: the whole is then read back. -/
theorem memRead_memWrite_append {m : Memory} {v s : Bytes} (hv : memRead m 0 v.length = .ok v)
    (hcap : v.length + s.length ≤ Config.cap) :
    memRead (memWrite m v.length s) 0 (v.length + s.length) = .ok (v ++ s) := by
  obtain ⟨-, hall⟩ := (memRead_eq_ok m 0 _ v).mp hv
  refine (memRead_eq_ok _ 0 _ _).mpr ⟨by simp, fun j hj => ?_⟩
  rw [List.length_append] at hj
  simp only [Nat.zero_add]
  rcases Nat.lt_or_ge j v.length with h | h
  · rw [readByte_memWrite_outside _ _ _ (Or.inl h), List.getElem_append_left h]
    simpa using hall j h
  · have := readByte_memWrite_inside m v.length s (j := j - v.length) (by omega) (by omega)
    rw [show v.length + (j - v.length) = j by omega] at this
    rw [this, List.getElem_append_right h]

/-! ## The canonical form -/

theorem risingFrom_mono {lo lo' : Nat} (h : lo' ≤ lo) {m : Memory} (hm : Memory.risingFrom lo m = true) :
    Memory.risingFrom lo' m = true := by
  cases m with
  | nil => rfl
  | cons cell rest =>
    obtain ⟨a, c⟩ := cell
    simp only [Memory.risingFrom, Bool.and_eq_true, decide_eq_true_eq] at hm ⊢
    exact ⟨⟨le_trans h hm.1.1, hm.1.2⟩, hm.2⟩

theorem risingFrom_writeByte {lo i : Nat} (hlo : lo ≤ i) (hi : i < Config.cap) (b : Byte) {m : Memory}
    (hm : Memory.risingFrom lo m = true) : Memory.risingFrom lo (writeByte m i b) = true := by
  induction m generalizing lo with
  | nil => simp [writeByte, Memory.risingFrom, hlo, hi]
  | cons cell rest ih =>
    obtain ⟨a, c⟩ := cell
    simp only [Memory.risingFrom, Bool.and_eq_true, decide_eq_true_eq] at hm
    unfold writeByte
    split
    · rename_i hia
      simp only [Memory.risingFrom, Bool.and_eq_true, decide_eq_true_eq]
      exact ⟨⟨hlo, hi⟩, ⟨hia, hm.1.2⟩, hm.2⟩
    · split
      · rename_i heq; subst heq
        simp only [Memory.risingFrom, Bool.and_eq_true, decide_eq_true_eq]
        exact ⟨⟨hlo, hi⟩, hm.2⟩
      · simp only [Memory.risingFrom, Bool.and_eq_true, decide_eq_true_eq]
        exact ⟨hm.1, ih (by omega) hm.2⟩

/-- A byte write inside the buffer keeps the canonical form. -/
theorem wf_writeByte {m : Memory} (hm : m.wf = true) {i : Nat} (hi : i < Config.cap) (b : Byte) :
    Memory.wf (writeByte m i b) = true :=
  risingFrom_writeByte (Nat.zero_le i) hi b hm

/-- `MemWrite` inside the buffer keeps the canonical form. -/
theorem wf_memWrite {m : Memory} (hm : m.wf = true) {i : Nat} {s : Bytes} (h : i + s.length ≤ Config.cap) :
    Memory.wf (memWrite m i s) = true := by
  induction s generalizing m i with
  | nil => exact hm
  | cons b bs ih =>
    rw [List.length_cons] at h
    unfold memWrite
    exact ih (wf_writeByte hm (by omega) b) (by omega)

/-- The memory after reset has the canonical form. -/
theorem wf_reset : State.reset.rxBuf.wf = true := rfl

end Sys2Proof.Machine
end

