-- ==== Sys2Proof/Laws/Reassembler.lean ====
section
/-! SUPPORT. What FEED, RXRESET and RXPEEK can do, once each. -/

namespace Sys2Proof.Machine

variable {chunk : Bytes} {s : State}

theorem feedOverflows_true (h : 512 < s.rxLen.toNat + chunk.length) : feedOverflows chunk s = true :=
  decide_eq_true h

theorem feedOverflows_false (h : s.rxLen.toNat + chunk.length ≤ 512) : feedOverflows chunk s = false :=
  decide_eq_false (Nat.not_lt.mpr h)

/-- FEED of a chunk longer than the buffer (R132). -/
theorem execFeed_chunkTooLong (h : 512 < chunk.length) :
    execFeed chunk s = .next (respond ([0x21, 0x01] ++ u16Bytes s.rxLen.toNat) (emptyBuffer s)) := by
  have ho : feedOverflows chunk s = true := feedOverflows_true (by omega)
  have hm : Config.maxChunk < chunk.length := h
  simp only [execFeed, if_pos hm, feedResponse, feedDropped, overflowStep, ho, if_true, codeByte, flagsByte,
    List.append_nil]

/-- The append step puts the chunk behind the valid bytes (R133). -/
theorem validBytes_appendChunk {v : Bytes} (hv : validBytes s = .ok v) (h : v.length + chunk.length ≤ 512) :
    validBytes (appendChunk chunk s) = .ok (v ++ chunk) := by
  have hl : v.length = s.rxLen.toNat := ((memRead_eq_ok _ _ _ _).mp hv).1
  unfold validBytes at hv ⊢
  rw [← hl] at hv
  have hn : (appendChunk chunk s).rxLen.toNat = v.length + chunk.length := by
    rw [appendChunk_rxLen, BitVec.toNat_ofNat, ← hl]; omega
  rw [hn, appendChunk_rxBuf, ← hl]
  exact memRead_memWrite_append hv h

/-- The valid bytes are as many as the cursor says. -/
theorem validBytes_length {v : Bytes} (hv : validBytes s = .ok v) : v.length = s.rxLen.toNat :=
  ((memRead_eq_ok _ _ _ _).mp hv).1

/-- Readable valid bytes lie inside the buffer. -/
theorem validBytes_length_le {v : Bytes} (hv : validBytes s = .ok v) : v.length ≤ 512 := by
  obtain ⟨-, hall⟩ := (memRead_eq_ok _ _ _ _).mp hv
  rcases Nat.eq_zero_or_pos v.length with h | h
  · omega
  · have := readByte_ok_lt (hall (v.length - 1) (by omega))
    simp only [Config.cap] at this; omega

/-- An empty buffer has no valid bytes. -/
theorem validBytes_of_rxLen_zero (h : s.rxLen = 0) : validBytes s = .ok [] := by
  simp only [validBytes, h]; rfl

@[simp] theorem validBytes_emptyBuffer : validBytes (emptyBuffer s) = .ok [] :=
  validBytes_of_rxLen_zero rfl

/-- FEED of a chunk that fits behind the valid bytes (R133, R134): no overflow. -/
theorem execFeed_fits {v : Bytes} (hv : validBytes s = .ok v) (h : v.length + chunk.length ≤ 512) :
    execFeed chunk s = .next (respond
      (feedResponse (decodeCode (decodeFrame (v ++ chunk))) false 0 (decodeBody (decodeFrame (v ++ chunk))))
      (dispose (decodeFrame (v ++ chunk)) (appendChunk chunk s))) := by
  have hl := validBytes_length hv
  have ho : feedOverflows chunk s = false := feedOverflows_false (by omega)
  have hm : ¬ Config.maxChunk < chunk.length := by simp only [Config.maxChunk, Config.cap]; omega
  simp only [execFeed, if_neg hm, overflowStep, feedDropped, ho, Bool.false_eq_true, if_false,
    validBytes_appendChunk hv h]

/-- FEED of a chunk that overflows but fits the empty buffer (R131): the old bytes are dropped and the chunk is decoded
alone. -/
theorem execFeed_overflows (ho : 512 < s.rxLen.toNat + chunk.length) (h : chunk.length ≤ 512) :
    execFeed chunk s = .next (respond
      (feedResponse (decodeCode (decodeFrame chunk)) true s.rxLen.toNat (decodeBody (decodeFrame chunk)))
      (dispose (decodeFrame chunk) (appendChunk chunk (emptyBuffer s)))) := by
  have ho' := feedOverflows_true ho
  have hm : ¬ Config.maxChunk < chunk.length := by simp only [Config.maxChunk, Config.cap]; omega
  have hv : validBytes (appendChunk chunk (emptyBuffer s)) = .ok chunk := by
    simpa using validBytes_appendChunk (chunk := chunk) (validBytes_emptyBuffer (s := s)) (by simpa using h)
  simp only [execFeed, if_neg hm, overflowStep, feedDropped, ho', if_true, hv]

/-- FEED that fits faults exactly as reading its buffer does. -/
theorem execFeed_fault {f : Fault} (hf : validBytes (appendChunk chunk s) = .error f)
    (h : s.rxLen.toNat + chunk.length ≤ 512) : execFeed chunk s = .fault f := by
  have ho : feedOverflows chunk s = false := feedOverflows_false h
  have hm : ¬ Config.maxChunk < chunk.length := by simp only [Config.maxChunk, Config.cap]; omega
  simp only [execFeed, if_neg hm, overflowStep, ho, Bool.false_eq_true, if_false, hf]

/-- Everything FEED can answer, when it answers a next state. -/
theorem execFeed_next {t : State} (h : execFeed chunk s = .next t) :
    (512 < chunk.length ∧ t = respond ([0x21, 0x01] ++ u16Bytes s.rxLen.toNat) (emptyBuffer s))
    ∨ (chunk.length ≤ 512 ∧ 512 < s.rxLen.toNat + chunk.length ∧ t = respond
        (feedResponse (decodeCode (decodeFrame chunk)) true s.rxLen.toNat (decodeBody (decodeFrame chunk)))
        (dispose (decodeFrame chunk) (appendChunk chunk (emptyBuffer s))))
    ∨ (s.rxLen.toNat + chunk.length ≤ 512 ∧ ∃ w, validBytes (appendChunk chunk s) = .ok w ∧ t = respond
        (feedResponse (decodeCode (decodeFrame w)) false 0 (decodeBody (decodeFrame w)))
        (dispose (decodeFrame w) (appendChunk chunk s))) := by
  rcases Nat.lt_or_ge 512 chunk.length with hlong | hshort
  · rw [execFeed_chunkTooLong hlong] at h
    cases h
    exact .inl ⟨hlong, rfl⟩
  rcases Nat.lt_or_ge 512 (s.rxLen.toNat + chunk.length) with ho | ho
  · rw [execFeed_overflows ho hshort] at h
    cases h
    exact .inr (.inl ⟨hshort, ho, rfl⟩)
  · refine .inr (.inr ⟨ho, ?_⟩)
    cases hw : validBytes (appendChunk chunk s) with
    | error f => rw [execFeed_fault hw ho] at h; cases h
    | ok w =>
      have hm : ¬ Config.maxChunk < chunk.length := by simp only [Config.maxChunk, Config.cap]; omega
      simp only [execFeed, if_neg hm, overflowStep, feedDropped, feedOverflows_false ho, Bool.false_eq_true, if_false,
        hw] at h
      cases h
      exact ⟨w, rfl, rfl⟩

theorem execRxreset_eq (s : State) :
    execRxreset s = .next (respond ([0x00] ++ u16Bytes s.rxLen.toNat) (emptyBuffer s)) := rfl

/-- RXPEEK over readable valid bytes (R140). -/
theorem execRxpeek_ok {v : Bytes} (hv : validBytes s = .ok v) :
    execRxpeek s = .next (respond ([0x00] ++ u16Bytes s.rxLen.toNat ++ v) s) := by
  simp only [execRxpeek, hv, codeByte]

theorem execRxpeek_fault {f : Fault} (hf : validBytes s = .error f) : execRxpeek s = .fault f := by
  simp only [execRxpeek, hf]

/-- What the disposition leaves (R134). -/
theorem dispose_cases (r : DecodeResult) (s : State) :
    (r = .incomplete ∧ dispose r s = s) ∨ (r ≠ .incomplete ∧ dispose r s = emptyBuffer s) := by
  cases r with
  | incomplete => exact .inl ⟨rfl, rfl⟩
  | invalid why => exact .inr ⟨nofun, rfl⟩
  | frame f => exact .inr ⟨nofun, rfl⟩

end Sys2Proof.Machine
end

