-- ==== Sys2Proof/Laws/Exec.lean ====
section
/-! SUPPORT. What no operation touches: the reset input and what stands outside the block. -/

namespace Sys2Proof.Machine

open Sys2Proof

/-- `t` has the reset input, the requesters' queues, the deliveries and the turn of `s`. -/
def SameOutside (s t : State) : Prop :=
  t.resetIn = s.resetIn ∧ t.requesters = s.requesters ∧ t.delivered = s.delivered ∧ t.turn = s.turn

theorem sameOutside_respond (r : Bytes) {s t : State} (h : SameOutside s t) : SameOutside s (respond r t) := h

theorem sameOutside_dispose (r : DecodeResult) (chunk : Bytes) {s t : State} (h : SameOutside s t) :
    SameOutside s (dispose r (appendChunk chunk t)) := by
  cases r <;> exact h

theorem execEncode_next {command : Half} {payload : Bytes} {s t : State}
    (h : execEncode command payload s = .next t) : ∃ r, t = respond r s := by
  unfold execEncode at h
  split at h
  · cases h; exact ⟨_, rfl⟩
  · cases h; exact ⟨_, rfl⟩

theorem execRxpeek_next {s t : State} (h : execRxpeek s = .next t) :
    ∃ v, validBytes s = .ok v ∧ t = respond ([0x00] ++ u16Bytes s.rxLen.toNat ++ v) s := by
  cases hv : validBytes s with
  | error f => rw [execRxpeek_fault hv] at h; cases h
  | ok v => rw [execRxpeek_ok hv] at h; cases h; exact ⟨v, rfl, rfl⟩

theorem execFeed_sameOutside {chunk : Bytes} {s t : State} (h : execFeed chunk s = .next t) : SameOutside s t := by
  rcases execFeed_next h with ⟨-, rfl⟩ | ⟨-, -, rfl⟩ | ⟨-, w, -, rfl⟩
  · exact ⟨rfl, rfl, rfl, rfl⟩
  · exact sameOutside_respond _ (sameOutside_dispose _ _ ⟨rfl, rfl, rfl, rfl⟩)
  · exact sameOutside_respond _ (sameOutside_dispose _ _ ⟨rfl, rfl, rfl, rfl⟩)

/-- No operation touches what stands outside the block. -/
theorem exec_sameOutside {i : Instr} {s t : State} (h : exec i s = .next t) : SameOutside s t := by
  cases i with
  | lrc d => cases h; exact ⟨rfl, rfl, rfl, rfl⟩
  | encode c p => obtain ⟨r, rfl⟩ := execEncode_next h; exact ⟨rfl, rfl, rfl, rfl⟩
  | decode d => cases h; exact ⟨rfl, rfl, rfl, rfl⟩
  | feed c => exact execFeed_sameOutside h
  | rxreset => cases h; exact ⟨rfl, rfl, rfl, rfl⟩
  | rxpeek => obtain ⟨v, -, rfl⟩ := execRxpeek_next h; exact ⟨rfl, rfl, rfl, rfl⟩

end Sys2Proof.Machine
end

