-- ==== Sys2Proof/Laws/PerInstr.lean ====
section
/-! SUPPORT. Facts about each instruction as syntax, one lemma per constructor. -/

namespace Sys2Proof.Laws

open Machine

/-- How many operand bytes `N` an instruction carries. -/
def operandLength : Instr → Nat
  | .lrc data => data.length
  | .encode _ payload => payload.length
  | .decode data => data.length
  | .feed chunk => chunk.length
  | .rxreset => 0
  | .rxpeek => 0

/-- The fixed part of an instruction's request format (R68, R71). -/
def fixedPart : Instr → Nat
  | .lrc _ => 4
  | .encode _ _ => 6
  | .decode _ => 4
  | .feed _ => 4
  | .rxreset => 1
  | .rxpeek => 1

end Sys2Proof.Laws

/-- R68: an instruction's request is its format's fixed part plus `N` bytes long. -/
def Sys2Proof.Laws.RequestLength.Statement (i : Sys2Proof.Instr) : Prop :=
  (Sys2Proof.encodeRequest i).length = Sys2Proof.Laws.fixedPart i + Sys2Proof.Laws.operandLength i

theorem Sys2Proof.Laws.RequestLength.lrc (data : Sys2Proof.Bytes) :
    Sys2Proof.Laws.RequestLength.Statement (.lrc data) := by
  simp only [Statement, encodeRequest, encodeData, List.length_cons, List.length_append,
    Sys2Proof.Machine.length_u24Bytes, fixedPart, operandLength]; omega

theorem Sys2Proof.Laws.RequestLength.encode (command : Sys2Proof.Half) (payload : Sys2Proof.Bytes) :
    Sys2Proof.Laws.RequestLength.Statement (.encode command payload) := by
  simp only [Statement, encodeRequest, encodeEnc, List.length_cons, List.length_append,
    Sys2Proof.Machine.length_u16Bytes, Sys2Proof.Machine.length_u24Bytes, fixedPart, operandLength]; omega

theorem Sys2Proof.Laws.RequestLength.decode (data : Sys2Proof.Bytes) :
    Sys2Proof.Laws.RequestLength.Statement (.decode data) := by
  simp only [Statement, encodeRequest, encodeData, List.length_cons, List.length_append,
    Sys2Proof.Machine.length_u24Bytes, fixedPart, operandLength]; omega

theorem Sys2Proof.Laws.RequestLength.feed (chunk : Sys2Proof.Bytes) :
    Sys2Proof.Laws.RequestLength.Statement (.feed chunk) := by
  simp only [Statement, encodeRequest, encodeData, List.length_cons, List.length_append,
    Sys2Proof.Machine.length_u24Bytes, fixedPart, operandLength]; omega

theorem Sys2Proof.Laws.RequestLength.rxreset : Sys2Proof.Laws.RequestLength.Statement .rxreset := rfl

theorem Sys2Proof.Laws.RequestLength.rxpeek : Sys2Proof.Laws.RequestLength.Statement .rxpeek := rfl
end

