-- ==== Sys2Proof/Laws/Step.lean ====
section
/-! SUPPORT. Taking a request, delivering its response, and, once, everything a step can do. -/

namespace Sys2Proof.Machine

open Sys2Proof

/-- The ready requesters are those with a request. -/
theorem mem_readyFrom {k r : Nat} {queues : List (List Bytes)} :
    r ∈ readyFrom k queues ↔ k ≤ r ∧ ∃ req rest, queues[r - k]? = some (req :: rest) := by
  induction queues generalizing k with
  | nil => simp [readyFrom]
  | cons q qs ih =>
    have step : ∀ hk : k < r, (q :: qs)[r - k]? = qs[r - (k + 1)]? := fun hk => by
      rw [show r - k = (r - (k + 1)) + 1 by omega, List.getElem?_cons_succ]
    cases q with
    | nil =>
      simp only [readyFrom, ih]
      constructor
      · rintro ⟨h, req, rest, e⟩
        exact ⟨by omega, req, rest, by rw [step (by omega)]; exact e⟩
      · rintro ⟨h, req, rest, e⟩
        rcases Nat.lt_or_ge k r with hk | hk
        · exact ⟨by omega, req, rest, by rw [← step hk]; exact e⟩
        · rw [show r - k = 0 by omega] at e
          simp at e
    | cons p ps =>
      simp only [readyFrom, List.mem_cons, ih]
      constructor
      · rintro (h | ⟨h, req, rest, e⟩)
        · subst h; exact ⟨le_refl _, p, ps, by simp⟩
        · exact ⟨by omega, req, rest, by rw [step (by omega)]; exact e⟩
      · rintro ⟨h, req, rest, e⟩
        rcases Nat.lt_or_ge k r with hk | hk
        · exact .inr ⟨by omega, req, rest, by rw [← step hk]; exact e⟩
        · exact .inl (by omega)

/-- The choice is always one of the ready requesters. -/
theorem chooseRequester_mem {turn r : Nat} {ready : List Nat} (h : chooseRequester turn ready = some r) :
    r ∈ ready := by
  unfold chooseRequester at h
  split at h
  · cases h
  · cases h; simp
  · exact List.mem_of_getElem? h

/-- With a ready requester there is always a choice. -/
theorem chooseRequester_isSome {turn : Nat} {ready : List Nat} (h : ready ≠ []) :
    ∃ r, chooseRequester turn ready = some r := by
  unfold chooseRequester
  split
  · exact absurd rfl h
  · exact ⟨_, rfl⟩
  · rename_i r r' rest
    have hlt : Config.schedule turn % (rest.length + 2) < (r :: r' :: rest).length := by
      simp only [List.length_cons]; exact Nat.mod_lt _ (by omega)
    exact ⟨_, List.getElem?_eq_getElem hlt⟩

/-- Everything taking a request does: it takes the oldest request of a requester that has one, and nothing else. -/
theorem acceptRequest_some {s taken : State} {r : Nat} {req : Bytes} (h : acceptRequest s = some (r, req, taken)) :
    ∃ rest, s.requesters[r]? = some (req :: rest)
      ∧ taken = { s with requesters := s.requesters.modify r List.tail, turn := s.turn + 1 } := by
  unfold acceptRequest at h
  split at h
  · cases h
  · rename_i k hk
    split at h
    · cases h
    · rename_i q hq
      simp only [Option.some.injEq, Prod.mk.injEq] at h
      obtain ⟨rfl, rfl, rfl⟩ := h
      unfold headRequest at hq
      split at hq
      · rename_i p ps e
        cases hq
        exact ⟨ps, e, rfl⟩
      · cases hq

/-- A request is taken as soon as some requester has one. -/
theorem acceptRequest_isSome {s : State} {k : Nat} {q : Bytes} {qs : List Bytes}
    (h : s.requesters[k]? = some (q :: qs)) : ∃ r req taken, acceptRequest s = some (r, req, taken) := by
  have hm : k ∈ readyFrom 0 s.requesters := mem_readyFrom.mpr ⟨Nat.zero_le _, q, qs, by simpa using h⟩
  obtain ⟨r, hr⟩ := chooseRequester_isSome (turn := s.turn) (List.ne_nil_of_mem hm)
  obtain ⟨-, p, ps, e⟩ := mem_readyFrom.mp (chooseRequester_mem hr)
  simp only [Nat.sub_zero] at e
  refine ⟨r, p, { s with requesters := s.requesters.modify r List.tail, turn := s.turn + 1 }, ?_⟩
  simp only [acceptRequest, hr, headRequest, e]

/-- With one requester, its oldest request is taken. -/
theorem acceptRequest_single {s : State} {req : Bytes} {rest : List Bytes} (h : s.requesters = [req :: rest]) :
    acceptRequest s = some (0, req, { s with requesters := [rest], turn := s.turn + 1 }) := by
  simp [acceptRequest, h, readyFrom, chooseRequester, headRequest, List.modify, List.modifyTailIdx,
    List.modifyTailIdx.go, List.modifyHead]

/-- A finished request is a next state exactly when its operation was. -/
theorem finishFor_eq_next {r : Nat} {o : Host.Outcome State Fault Refusal} {t : State} :
    finishFor r o = .next t ↔ ∃ u, o = .next u ∧ t = deliverTo r u := by
  cases o with
  | next u =>
    constructor
    · intro h; cases h; exact ⟨u, rfl, rfl⟩
    · rintro ⟨v, hv, rfl⟩; cases hv; rfl
  | fault f => simp [finishFor]
  | refused e => simp [finishFor]

/-- Everything a step can do, when it answers a next state. -/
theorem step_cases {s t : State} (h : step s = .next t) :
    (s.resetIn = true ∧ t = takeReset s)
    ∨ (s.resetIn = false ∧ acceptRequest s = none ∧ t = s)
    ∨ (s.resetIn = false ∧ ∃ r req taken u, acceptRequest s = some (r, req, taken) ∧ perform req taken = .next u
        ∧ t = deliverTo r u) := by
  unfold step at h
  split at h
  · rename_i hr
    cases h
    exact .inl ⟨hr, rfl⟩
  · rename_i hr
    have hr' : s.resetIn = false := by simpa using hr
    split at h
    · rename_i ha
      cases h
      exact .inr (.inl ⟨hr', ha, rfl⟩)
    · rename_i r req taken ha
      obtain ⟨u, hu, rfl⟩ := finishFor_eq_next.mp h
      exact .inr (.inr ⟨hr', r, req, taken, u, ha, hu, rfl⟩)

/-- A step that takes a request. -/
theorem step_of_accept {s taken : State} {r : Nat} {req : Bytes} (hr : s.resetIn = false)
    (ha : acceptRequest s = some (r, req, taken)) : step s = finishFor r (perform req taken) := by
  simp only [step, hr, Bool.false_eq_true, if_false, ha]

/-- Performing a request that decodes. -/
theorem perform_of_decode {req : Bytes} {i : Instr} (h : decodeRequest req = .ok i) (s : State) :
    perform req s = exec i s := by
  simp only [perform, h]

/-- Performing a request that does not decode: the error's response and nothing else. -/
theorem perform_of_error {req : Bytes} {e : RequestError} (h : decodeRequest req = .error e) (s : State) :
    perform req s = .next (respond [codeByte (requestErrorCode e)] s) := by
  simp only [perform, h, raiseError_eq_respond]

end Sys2Proof.Machine
end

