-- ==== Sys2Proof/Laws/Run.lean ====
section
/-! SUPPORT. Runs of the machine behind Host/Core.lean, one step at a time. -/

namespace Sys2Proof

open Machine

/-- No request touches what stands outside the block. -/
theorem perform_sameOutside {req : Bytes} {s t : State} (h : perform req s = .next t) : SameOutside s t := by
  cases hd : decodeRequest req with
  | ok i => rw [perform_of_decode hd] at h; exact exec_sameOutside h
  | error e => rw [perform_of_error hd] at h; cases h; exact ⟨rfl, rfl, rfl, rfl⟩

/-- A run of no steps. -/
theorem run_zero (s : State) : core.run 0 s = .next s := rfl

/-- A run whose first step answers a next state goes on from there. -/
theorem run_succ {s t : State} (n : Nat) (h : step s = .next t) : core.run (n + 1) s = core.run n t := by
  have h' : core.step s = .next t := h
  have hr := Host.Core.run.eq_2 core s n
  rw [h'] at hr
  exact hr

/-- A run in two parts. -/
theorem run_add {s t : State} {m : Nat} (n : Nat) (h : core.run m s = .next t) :
    core.run (m + n) s = core.run n t := by
  induction m generalizing s with
  | zero =>
    rw [run_zero] at h; cases h; rw [Nat.zero_add]
  | succ m ih =>
    cases hs : step s with
    | next u =>
      rw [run_succ m hs] at h
      rw [Nat.succ_add, run_succ (m + n) hs]
      exact ih h
    | fault f =>
      have hs' : core.step s = .fault f := hs
      have hr := Host.Core.run.eq_2 core s m
      rw [hs'] at hr
      rw [hr] at h; cases h
    | refused e =>
      have hs' : core.step s = .refused e := hs
      have hr := Host.Core.run.eq_2 core s m
      rw [hs'] at hr
      rw [hr] at h; cases h

end Sys2Proof
end

