-- ==== Sys2Proof/Tests/Slice0.lean ====
section
/-! SUPPORT. The model's own tests. Expected values are those of spec/95_test_vectors.md unless a comment says
otherwise. -/

namespace Sys2Proof.Tests

open Machine

/-! ## Well-formedness: each check refuses an ill-formed term (R68: `N` is 24 bits) -/

theorem test_long_operand_does_not_fit (b : Byte) : operandFits (List.replicate 16777216 b) = false := by
  simp only [operandFits, List.length_replicate]
  decide

theorem test_lrc_ill_formed (b : Byte) : (Instr.lrc (List.replicate 16777216 b)).wellFormed = false :=
  test_long_operand_does_not_fit b

theorem test_encode_ill_formed (c : Half) (b : Byte) :
    (Instr.encode c (List.replicate 16777216 b)).wellFormed = false :=
  test_long_operand_does_not_fit b

theorem test_decode_ill_formed (b : Byte) : (Instr.decode (List.replicate 16777216 b)).wellFormed = false :=
  test_long_operand_does_not_fit b

theorem test_feed_ill_formed (b : Byte) : (Instr.feed (List.replicate 16777216 b)).wellFormed = false :=
  test_long_operand_does_not_fit b

/-! ## Decoding: requests written out from the spec's tables -/

/-- 2.1 vector 8. -/
theorem test_decode_lrc :
    decodeRequest [0x01, 0x00, 0x00, 0x02, 0x02, 0x03] = .ok (.lrc [0x02, 0x03]) := by decide
/-- 2.2 vector 6: the command's bytes and `N`'s are big-endian. -/
theorem test_decode_encode :
    decodeRequest [0x02, 0x03, 0xE8, 0x00, 0x00, 0x01, 0xFF] = .ok (.encode 1000 [0xFF]) := by decide
/-- 2.3 vector 2. -/
theorem test_decode_decode :
    decodeRequest [0x03, 0x00, 0x00, 0x03, 0x00, 0x01, 0x02] = .ok (.decode [0x00, 0x01, 0x02]) := by decide
/-- P1 step 2. -/
theorem test_decode_feed :
    decodeRequest [0x04, 0x00, 0x00, 0x03, 0x11, 0xEF, 0x03] = .ok (.feed [0x11, 0xEF, 0x03]) := by decide
theorem test_decode_rxreset : decodeRequest [0x05] = .ok .rxreset := by decide
theorem test_decode_rxpeek : decodeRequest [0x06] = .ok .rxpeek := by decide

/-- 2.4 vectors 1 to 8 and 2.1 vectors 13, 14. -/
theorem test_decode_refuses :
    decodeRequest [] = .error .malformed ∧ decodeRequest [0x00] = .error .illegalOp
    ∧ decodeRequest [0x07] = .error .illegalOp ∧ decodeRequest [0x0F] = .error .illegalOp
    ∧ decodeRequest [0x14, 0x00, 0x00, 0x00] = .error .illegalOp ∧ decodeRequest [0xFF] = .error .illegalOp
    ∧ decodeRequest [0x05, 0x00] = .error .malformed ∧ decodeRequest [0x06, 0x00] = .error .malformed
    ∧ decodeRequest [0x01, 0x00, 0x00, 0x02, 0xAA] = .error .malformed
    ∧ decodeRequest [0x01, 0x00, 0x00] = .error .malformed
    ∧ decodeRequest [0x02, 0x03, 0xE8, 0x00] = .error .malformed := by decide

/-- The opcode table's words, operands of zeros. -/
theorem test_table_words :
    decodeTableWord 8 1 = some (.lrc []) ∧ decodeTableWord 8 2 = some (.encode 0 [])
    ∧ decodeTableWord 8 3 = some (.decode []) ∧ decodeTableWord 8 4 = some (.feed [])
    ∧ decodeTableWord 8 5 = some .rxreset ∧ decodeTableWord 8 6 = some .rxpeek
    ∧ decodeTableWord 8 0 = none ∧ decodeTableWord 8 7 = none ∧ decodeTableWord 8 0x14 = none := by decide

/-! ## One step on a small state -/

/-- One requester, with the given requests, over the given valid bytes. -/
def sample (valid : Bytes) (requests : List Bytes) : State :=
  { State.reset with
    rxLen := BitVec.ofNat 10 valid.length
    rxBuf := memWrite [] 0 valid
    requesters := [requests] }

/-- The response a step delivers last, and the valid bytes after it. -/
def outcomeOf (o : Host.Outcome State Fault Refusal) : Option (Option (Nat × Bytes) × Except Fault Bytes) :=
  match o with
  | .next s => some (s.delivered.getLast?, validBytes s)
  | .fault _ => none
  | .refused _ => none

/-- A step answers this response to requester 0 and leaves these valid bytes. -/
def answers (s : State) (response valid : Bytes) : Bool :=
  outcomeOf (step s) == some (some (0, response), .ok valid)

/-- 2.1 vectors 1 and 8. -/
theorem test_step_lrc_empty : answers (sample [] [[0x01, 0x00, 0x00, 0x00]]) [0x00, 0x00] [] = true := by decide
theorem test_step_lrc :
    answers (sample [] [[0x01, 0x00, 0x00, 0x06, 0x03, 0xE8, 0x00, 0x00, 0x00, 0x00]]) [0x00, 0x15] [] = true := by
  decide

/-- 2.2 vector 10; the buffer's partial frame is not touched. -/
theorem test_step_encode :
    answers (sample [0x11, 0xEF] [[0x02, 0x07, 0xD0, 0x00, 0x00, 0x08, 0x04, 0xDE, 0xAD, 0xBE, 0xEF, 0x00, 0x04, 0x08]])
      [0x00, 0x00, 0x00, 0x12, 0x11, 0xEF, 0x07, 0xD0, 0x00, 0x00, 0x00, 0x08, 0x21, 0x04, 0xDE, 0xAD, 0xBE, 0xEF,
        0x00, 0x04, 0x08, 0xB8] [0x11, 0xEF] = true := by decide
/-- 2.2, the vector of 65536 payload bytes. -/
theorem test_encode_too_long (s : State) :
    exec (.encode 1000 (List.replicate 65536 0)) s = .next { s with responsePort := some [0x20] } := by
  simp only [exec, execEncode, List.length_replicate]
  rfl

/-- 2.3 vector 10: status 0068 is reported raw. -/
theorem test_step_decode :
    answers (sample [] [[0x03, 0x00, 0x00, 0x0C, 0x11, 0xEF, 0x03, 0xE8, 0x00, 0x68, 0x00, 0x02, 0xAB, 0x02, 0x03, 0xFB]])
      [0x01, 0xEF, 0x03, 0xE8, 0x00, 0x68, 0x00, 0x02, 0x02, 0x03] [] = true := by decide
/-- 2.3 vectors 5, 13, 14, 15, 18 and 20: the outcomes and their priority. -/
theorem test_decode_outcomes :
    decodeFrame [0, 0, 0, 0, 0, 0, 0, 0, 0] = .invalid .badSof
    ∧ decodeFrame [0x11, 0xEF, 0x03, 0xE8, 0, 0, 0, 0, 0x16, 0x00] = .invalid .lrc2
    ∧ decodeFrame [0x11, 0xEF, 0x03, 0xE8, 0, 0, 0, 2, 0x13, 0x02, 0x03, 0xFA] = .invalid .lrc3
    ∧ decodeFrame [0x11, 0xEF, 0x03, 0xE8, 0, 0, 0, 2, 0x14, 0x02, 0x03, 0xFA] = .invalid .lrc2
    ∧ decodeCode (decodeFrame [0x11, 0xEF, 0x03, 0xE8, 0, 0, 0, 0, 0x15, 0x00, 0xAA, 0xBB]) = .frame
    ∧ decodeFrame [0x11, 0xEF, 0x03, 0xE8, 0, 0, 0, 0x20, 0x15, 0, 0, 0, 0, 0, 0, 0, 0, 0, 0] = .incomplete := by
  decide

/-- P1 step 4: the second chunk completes the frame. -/
theorem test_step_feed_completes :
    answers (sample [0x11, 0xEF, 0x03] [[0x04, 0x00, 0x00, 0x07, 0xE8, 0x00, 0x00, 0x00, 0x00, 0x15, 0x00]])
      [0x01, 0x00, 0x00, 0x00, 0xEF, 0x03, 0xE8, 0x00, 0x00, 0x00, 0x00] [] = true := by decide
/-- 2.5 long vector 4, last FEED: 509 + 4 passes 512, the old bytes are dropped (01FD) and the new ones held. -/
theorem test_step_feed_overflows :
    answers { sample [] [[0x04, 0x00, 0x00, 0x04, 0x11, 0xEF, 0x03, 0xE8]] with rxLen := 509 }
      [0x02, 0x01, 0x01, 0xFD] [0x11, 0xEF, 0x03, 0xE8] = true := by decide
/-- 2.5 long vector 9: CHUNK_TOO_LONG, OVF = 1, dropped 3. -/
theorem test_feed_chunk_too_long :
    exec (.feed (List.replicate 600 0)) (sample [0x11, 0xEF, 0x03] [])
      = .next { sample [0x11, 0xEF, 0x03] [] with rxLen := 0, responsePort := some [0x21, 0x01, 0x00, 0x03] } := by
  rw [exec, execFeed_chunkTooLong (by rw [List.length_replicate]; omega)]
  rfl

/-- P3 step 4. -/
theorem test_step_rxreset :
    answers (sample [0x00, 0x00, 0x00, 0x00, 0x29, 0x00] [[0x05]]) [0x00, 0x00, 0x06] [] = true := by decide
/-- P3 step 3. -/
theorem test_step_rxpeek :
    answers (sample [0x00, 0x00, 0x00, 0x00, 0x29, 0x00] [[0x06]])
      [0x00, 0x00, 0x06, 0x00, 0x00, 0x00, 0x00, 0x29, 0x00] [0x00, 0x00, 0x00, 0x00, 0x29, 0x00] = true := by decide

/-- 2.4 vectors 9 and 10: the buffer is kept. -/
theorem test_step_malformed :
    answers (sample [0x11, 0xEF, 0x03] [[0x04, 0x00, 0x00, 0x05, 0xE8]]) [0x31] [0x11, 0xEF, 0x03] = true := by decide
theorem test_step_illegal :
    answers (sample [0x11, 0xEF, 0x03] [[0x30]]) [0x30] [0x11, 0xEF, 0x03] = true := by decide

/-- R180: the reset input empties the buffer and forgets its bytes. -/
theorem test_step_reset_input :
    step { sample [0x11, 0xEF] [[0x06]] with resetIn := true }
      = .next { State.reset with requesters := [[[0x06]]] } := by rfl
/-- R182: with nothing pending the block waits. -/
theorem test_step_waits : step State.reset = .next State.reset := by rfl

/-- The table's words run as the first request after reset. -/
theorem test_table_words_run :
    answers (State.reset.withFetchWord 8 1) [0x00, 0x00] []
    ∧ answers (State.reset.withFetchWord 8 2)
        [0x00, 0x00, 0x00, 0x0A, 0x11, 0xEF, 0x00, 0x00, 0x00, 0x00, 0x00, 0x00, 0x00, 0x00] []
    ∧ answers (State.reset.withFetchWord 8 3) [0x02] []
    ∧ answers (State.reset.withFetchWord 8 4) [0x02, 0x00, 0x00, 0x00] []
    ∧ answers (State.reset.withFetchWord 8 5) [0x00, 0x00, 0x00] []
    ∧ answers (State.reset.withFetchWord 8 6) [0x00, 0x00, 0x00] [] := by decide

/-! ## The assembler (R77) -/

/-- R77's own example, with spacing and a comment. -/
theorem test_assemble_encode :
    assembleLine "ENCODE 1000, []".toList = some [0x02, 0x03, 0xE8, 0x00, 0x00, 0x00] := by decide
theorem test_assemble_feed :
    assembleLine "FEED [11 EF 00*3] ; a chunk".toList
      = some [0x04, 0x00, 0x00, 0x05, 0x11, 0xEF, 0x00, 0x00, 0x00] := by decide

end Sys2Proof.Tests
end

