-- ==== Sys2Proof/Tests/Witnesses.lean ====
section
/-! SUPPORT. For each statement of Certificates/Slice0/Obligations.lean that has hypotheses, a concrete state and operands
that meet all of them together, clause by clause, at boundary values of their ranges. -/

namespace Sys2Proof.Tests

open Machine

/-- The frame `ENCODE 1000, []` builds (spec/95_test_vectors.md 1.1). -/
def versionFrame : Bytes := [0x11, 0xEF, 0x03, 0xE8, 0x00, 0x00, 0x00, 0x00, 0x15, 0x00]

/-- The frame of spec/95_test_vectors.md 1.2, with payload 02 03. -/
def payloadFrame : Bytes := [0x11, 0xEF, 0x03, 0xE8, 0x00, 0x00, 0x00, 0x02, 0x13, 0x02, 0x03, 0xFB]

theorem length_zeros (n : Nat) : (List.replicate n (0x00 : Byte)).length = n := List.length_replicate

theorem sample_inv : Inv (sample [0x11, 0xEF, 0x03] []) :=
  ⟨⟨by decide, by decide, ⟨[0x11, 0xEF, 0x03], by decide, .inr (by decide)⟩⟩, by decide⟩

theorem empty_inv : Inv (sample [] []) :=
  ⟨⟨by decide, by decide, ⟨[], by decide, .inl (by decide)⟩⟩, by decide⟩

/-! ## Checksum and codec -/

theorem witness_ChecksumAlgebra :
    List.Perm ([0x01, 0x02, 0x03] : Bytes) [0x03, 0x02, 0x01]
    ∧ (∃ h : 2 < ([0x01, 0x02, 0x03] : Bytes).length, (0x04 : Byte) ≠ ([0x01, 0x02, 0x03] : Bytes)[2])
    ∧ (0xFF : Byte) + 0x02 = 0x00 + 0x01 := by decide

theorem witness_LrcRespondsChecksum :
    (List.replicate 16777215 (0x00 : Byte)).length ≤ 16777215
    ∧ 256 ∣ (([0x80, 0x80] : Bytes).map BitVec.toNat).sum :=
  ⟨(length_zeros _).le, by decide⟩

theorem witness_EncodeRespondsFrame :
    (List.replicate 16777215 (0x00 : Byte)).length ≤ 16777215
    ∧ (List.replicate 65535 (0x00 : Byte)).length ≤ 65535
    ∧ 65535 < (List.replicate 65536 (0x00 : Byte)).length
    ∧ (List.replicate 65535 (0x00 : Byte)).length = 65535 :=
  ⟨(length_zeros _).le, (length_zeros _).le, (by omega : 65535 < 65536).trans_eq (length_zeros _).symm, length_zeros _⟩

/-- Also the hypothesis of EncoderOutputWellFormed, FrameRoundTrip and EncodedFrameSumsToZero. -/
theorem witness_EncoderOutputWellFormed : (List.replicate 65535 (0x00 : Byte)).length ≤ 65535 := (length_zeros _).le
theorem witness_FrameRoundTrip : (List.replicate 65535 (0x00 : Byte)).length ≤ 65535 := (length_zeros _).le
theorem witness_EncodedFrameSumsToZero : (List.replicate 65535 (0x00 : Byte)).length ≤ 65535 := (length_zeros _).le

/-- 8 and 9 bytes; a 9-byte header that claims one byte more; a 10-byte frame. -/
theorem witness_DecoderCornerCases :
    (versionFrame.take 8).length < 9
    ∧ (9 ≤ (List.replicate 9 (0x00 : Byte)).length ∧ byteAt (List.replicate 9 0x00) 0 ≠ 0x11)
    ∧ (9 ≤ (versionFrame.take 9).length ∧ byteAt (versionFrame.take 9) 0 = 0x11
        ∧ (versionFrame.take 9).length < be16 (byteAt (versionFrame.take 9) 6) (byteAt (versionFrame.take 9) 7) + 10)
    ∧ (10 ≤ versionFrame.length ∧ byteAt versionFrame 0 = 0x11 ∧ byteAt versionFrame 6 = 0x00
        ∧ byteAt versionFrame 7 = 0x00 ∧ byteAt versionFrame 8 = lrc (slice versionFrame 2 8)) := by decide

theorem witness_DecodeRespondsOutcome : (List.replicate 16777215 (0x00 : Byte)).length ≤ 16777215 := (length_zeros _).le

theorem witness_FrameBodyLayout : ∃ f, decodeFrame payloadFrame = .frame f := ⟨frameFields payloadFrame, by decide⟩

/-- The frame completed with trailing bytes behind it, and the frame alone in a chunk that overflows. -/
theorem witness_LrcOneNeverValidated :
    wellFormedFrame payloadFrame = true ∧ validBytes (sample [0x11] []) = .ok [0x11]
    ∧ (if 512 < ([0x11] : Bytes).length + (0x00 :: payloadFrame.drop 2 ++ [0xAA]).length
        then 0x00 :: payloadFrame.drop 2 ++ [0xAA] else [0x11] ++ (0x00 :: payloadFrame.drop 2 ++ [0xAA]))
      = payloadFrame.set 1 0x00 ++ [0xAA]
    ∧ (∃ chunk x : Bytes, chunk.length = 512 ∧ (if 512 < ([0x11] : Bytes).length + chunk.length then chunk
        else [0x11] ++ chunk) = payloadFrame.set 1 0xFF ++ x) :=
  ⟨by decide, by decide, by decide, payloadFrame.set 1 0xFF ++ List.replicate 500 0x00, List.replicate 500 0x00,
    by rw [List.length_append, length_zeros]; decide, if_pos (by rw [List.length_append, length_zeros]; decide)⟩

theorem witness_DecoderAcceptsExactlyWellFormed :
    versionFrame.length = be16 (byteAt versionFrame 6) (byteAt versionFrame 7) + 10 := by decide

theorem witness_DecoderIgnoresTrailingBytes :
    9 ≤ versionFrame.length ∧ be16 (byteAt versionFrame 6) (byteAt versionFrame 7) + 10 ≤ versionFrame.length
    ∧ ∃ f, decodeFrame (versionFrame ++ [0xAA, 0xBB]) = .frame f :=
  ⟨by decide, by decide, frameFields versionFrame, by decide⟩

/-- The indices 0, 2, 5, 8, 9 and the last. -/
theorem witness_SingleByteCorruptionDetected :
    wellFormedFrame payloadFrame = true
    ∧ (∀ i ∈ [0, 2, 5, 8, 9, 11], i < payloadFrame.length ∧ (0xAA : Byte) ≠ byteAt payloadFrame i)
    ∧ (2 ≤ 2 ∧ 2 ≤ 5) ∧ (2 ≤ 5 ∧ 5 ≤ 5) ∧ 9 ≤ 9 ∧ 9 ≤ 11 := by decide

theorem witness_CodecReadsNoState :
    ((∃ d, (Instr.lrc []) = .lrc d) ∨ (∃ c p, (Instr.lrc []) = .encode c p) ∨ (∃ d, (Instr.lrc []) = .decode d))
    ∧ ((∃ d, (Instr.encode 0 []) = .lrc d) ∨ (∃ c p, (Instr.encode 0 []) = .encode c p)
        ∨ (∃ d, (Instr.encode 0 []) = .decode d))
    ∧ ((∃ d, (Instr.decode []) = .lrc d) ∨ (∃ c p, (Instr.decode []) = .encode c p)
        ∨ (∃ d, (Instr.decode []) = .decode d)) :=
  ⟨.inl ⟨_, rfl⟩, .inr (.inl ⟨_, _, rfl⟩), .inr (.inr ⟨_, rfl⟩)⟩

/-! ## Reassembler -/

/-- Readable valid bytes, with chunks of 509, 512 and 513 bytes: fitting exactly, overflowing, too long. -/
theorem witness_FeedRefinesByteList :
    validBytes (sample [0x11, 0xEF, 0x03] []) = .ok [0x11, 0xEF, 0x03] ∧ (sample [] []).rxLen = 0
    ∧ (List.replicate 512 (0x00 : Byte)).length ≤ 512 ∧ 512 < (List.replicate 513 (0x00 : Byte)).length
    ∧ 1 < ([0x00, 0x01] : Bytes).length :=
  ⟨by decide, by decide, (length_zeros _).le, (by omega : 512 < 513).trans_eq (length_zeros _).symm, by decide⟩

theorem witness_FeedStatusFields : BufferInv (sample [0x11, 0xEF, 0x03] []) := sample_inv.buffer

theorem witness_FeedOverflowDropsPartialFrame :
    512 < (sample [0x11, 0xEF, 0x03] []).rxLen.toNat + (List.replicate 510 (0x00 : Byte)).length
    ∧ validBytes (sample [0x11, 0xEF, 0x03] []) = .ok [0x11, 0xEF, 0x03]
    ∧ (sample [0x11, 0xEF, 0x03] []).rxLen.toNat + (List.replicate 509 (0x00 : Byte)).length ≤ 512 := by
  have h : (sample [0x11, 0xEF, 0x03] []).rxLen.toNat = 3 := by decide
  rw [length_zeros, length_zeros, h]
  exact ⟨by omega, by decide, by omega⟩

theorem witness_FeedChunkTooLong : 512 < (List.replicate 513 (0x00 : Byte)).length :=
  (by omega : 512 < 513).trans_eq (length_zeros _).symm

theorem witness_FeedDropsTrailingBytes :
    validBytes (sample [0x11, 0xEF, 0x03] []) = .ok [0x11, 0xEF, 0x03]
    ∧ [0x11, 0xEF, 0x03].length + (versionFrame.drop 3 ++ [0xAA]).length ≤ 512
    ∧ decodeFrame ([0x11, 0xEF, 0x03] ++ (versionFrame.drop 3 ++ [0xAA])) = .frame (frameFields versionFrame)
    ∧ (frameFields versionFrame).consumed < [0x11, 0xEF, 0x03].length + (versionFrame.drop 3 ++ [0xAA]).length := by
  decide

theorem witness_FeedCornerCases :
    BufferInv (sample [0x11, 0xEF, 0x03] []) ∧ (sample [] []).rxLen = 0 ∧ (sample [0x11, 0xEF, 0x03] []).rxLen ≠ 0
    ∧ (List.replicate 512 (0x00 : Byte)).length = 512 ∧ (List.replicate 513 (0x00 : Byte)).length = 513 :=
  ⟨sample_inv.buffer, by decide, by decide, length_zeros _, length_zeros _⟩

theorem witness_FeedNeverDeliversOversizeFrame :
    ∃ t rest, exec (.feed versionFrame) (sample [] []) = .next t ∧ t.responsePort = some (0x01 :: rest) :=
  ⟨_, [0x00, 0x00, 0x00, 0xEF, 0x03, 0xE8, 0x00, 0x00, 0x00, 0x00], rfl, by decide⟩

/-- The corrupted header of spec/95_test_vectors.md P5, at 9 bytes; lrc2 is wrong for its length field. -/
theorem witness_FeedWaitsForClaimedLength :
    validBytes (sample [0x11] []) = .ok [0x11]
    ∧ ([0x11] : Bytes).length + ([0xEF, 0x03, 0xE8, 0x00, 0x00, 0x00, 0x20, 0x15] : Bytes).length ≤ 512
    ∧ 9 ≤ (([0x11] : Bytes) ++ [0xEF, 0x03, 0xE8, 0x00, 0x00, 0x00, 0x20, 0x15]).length
    ∧ byteAt (([0x11] : Bytes) ++ [0xEF, 0x03, 0xE8, 0x00, 0x00, 0x00, 0x20, 0x15]) 0 = 0x11
    ∧ (([0x11] : Bytes) ++ [0xEF, 0x03, 0xE8, 0x00, 0x00, 0x00, 0x20, 0x15]).length
        < be16 (byteAt (([0x11] : Bytes) ++ [0xEF, 0x03, 0xE8, 0x00, 0x00, 0x00, 0x20, 0x15]) 6)
            (byteAt (([0x11] : Bytes) ++ [0xEF, 0x03, 0xE8, 0x00, 0x00, 0x00, 0x20, 0x15]) 7) + 10 := by decide

theorem witness_EncodedFrameIsReceived :
    (sample [] []).rxLen = 0 ∧ (List.replicate 502 (0x00 : Byte)).length ≤ 502 := ⟨by decide, (length_zeros _).le⟩

theorem witness_RxresetEmptiesBuffer :
    (sample [] []).rxLen = 0 ∧ (∃ t, exec .rxreset (sample [0x11, 0xEF, 0x03] []) = .next t)
    ∧ (sample [0x00, 0x00, 0x00, 0x00, 0x29, 0x00] []).rxLen = 6 := ⟨by decide, ⟨_, rfl⟩, by decide⟩

theorem witness_RxpeekReportsValidBytes :
    validBytes (sample [0x11, 0xEF, 0x03] []) = .ok [0x11, 0xEF, 0x03] ∧ (sample [] []).rxLen = 0
    ∧ (∃ t, exec .rxpeek (sample [0x11, 0xEF, 0x03] []) = .next t)
    ∧ validBytes (sample [0x00, 0x00, 0x00, 0x00, 0x29, 0x00] []) = .ok [0x00, 0x00, 0x00, 0x00, 0x29, 0x00] :=
  ⟨by decide, by decide, ⟨_, rfl⟩, by decide⟩

/-- A full buffer under a cursor of 513, and an unwritten byte at index 2 under a cursor of 3. -/
theorem witness_BufferReadStops :
    (512 < (513 : BitVec 10).toNat
      ∧ ∀ k, k < 512 → ∃ b, readByte (memWrite [] 0 (List.replicate 512 0x00)) k = .ok b)
    ∧ (2 < ({ sample [0x11, 0xEF] [] with rxLen := 3 } : State).rxLen.toNat ∧ 2 < 512
      ∧ (∀ j, j < 2 → ∃ b, readByte (sample [0x11, 0xEF] []).rxBuf j = .ok b)
      ∧ Memory.find (sample [0x11, 0xEF] []).rxBuf 2 = none
      ∧ ({ sample [0x11, 0xEF] [] with rxLen := 3 } : State).rxLen.toNat + ([] : Bytes).length ≤ 512) := by
  refine ⟨⟨by decide, fun k hk => ?_⟩, by decide, by decide, fun j hj => ?_, by decide, by decide⟩
  · have hz : ∀ p : Bytes, p.length = 512 → ∃ b, readByte (memWrite [] 0 p) k = .ok b := fun p hp => by
      have := readByte_memWrite_inside [] 0 p (j := k) (by omega) (by show 0 + k < 512; omega)
      rw [Nat.zero_add] at this
      exact ⟨_, this⟩
    exact hz _ (length_zeros _)
  · match j, hj with
    | 0, _ => exact ⟨0x11, by decide⟩
    | 1, _ => exact ⟨0xEF, by decide⟩

/-! ## Whole machine -/

theorem witness_OperationsKeepBufferInvariant :
    BufferInv (sample [0x11, 0xEF, 0x03] []) ∧ (∃ chunk, Instr.feed [] = .feed chunk)
    ∧ (∀ chunk, Instr.rxpeek ≠ .feed chunk) ∧ Instr.rxpeek ≠ .rxreset :=
  ⟨sample_inv.buffer, ⟨[], rfl⟩, nofun, nofun⟩

theorem witness_StepKeepsInvariant :
    Inv (sample [0x11, 0xEF, 0x03] []) ∧ ∃ t, step (sample [0x11, 0xEF, 0x03] []) = .next t :=
  ⟨sample_inv, _, rfl⟩

/-- A 9-byte header held, and 8 bytes for an empty buffer. -/
theorem witness_BufferFactsBetweenRequests :
    (BufferInv (sample (versionFrame.take 9) []) ∧ validBytes (sample (versionFrame.take 9) []) = .ok (versionFrame.take 9)
      ∧ 9 ≤ (sample (versionFrame.take 9) []).rxLen.toNat)
    ∧ (BufferInv (sample [] []) ∧ (sample [] []).rxLen = 0 ∧ (List.replicate 8 (0xFF : Byte)).length < 9) :=
  ⟨⟨⟨by decide, by decide, ⟨versionFrame.take 9, by decide, .inr (by decide)⟩⟩, by decide, by decide⟩,
    empty_inv.buffer, by decide, by decide⟩

theorem witness_ResultCodesAndEffects :
    (∃ t, exec (.lrc []) (sample [] []) = .next t) ∧ (∃ t, exec (.encode 0 []) (sample [] []) = .next t)
    ∧ (∃ t, exec (.decode []) (sample [] []) = .next t) ∧ (∃ t, exec (.feed versionFrame) (sample [] []) = .next t)
    ∧ (∃ t, exec .rxreset (sample [] []) = .next t) ∧ (∃ t, exec .rxpeek (sample [0x11] []) = .next t)
    ∧ decodeRequest [0x07] = .error .illegalOp ∧ decodeRequest [0x05, 0x00] = .error .malformed :=
  ⟨⟨_, rfl⟩, ⟨_, rfl⟩, ⟨_, rfl⟩, ⟨_, rfl⟩, ⟨_, rfl⟩, ⟨_, rfl⟩, by decide, by decide⟩

/-- Requester 1 feeds the chunks; requester 0 presents an RXPEEK and an illegal request meanwhile. -/
def writerState (v : Bytes) (chunks : List Bytes) : State :=
  { sample v [] with requesters := [[[0x06], [0x99]], chunks.map fun c => encodeRequest (.feed c)] }

theorem writerState_singleWriter (v : Bytes) {chunks : List Bytes} (h : ∀ c ∈ chunks, c.length ≤ Config.len24Max) :
    SingleWriter 1 chunks (writerState v chunks) where
  resetReleased := rfl
  feeds := rfl
  sizes := h
  others k q hk hq req hr i hi := by
    match k, hk, hq with
    | 0, _, hq =>
      cases hq
      rcases List.mem_cons.mp hr with rfl | hr
      · have : decodeRequest [0x06] = .ok .rxpeek := by decide
        rw [this] at hi; cases hi; exact ⟨nofun, nofun⟩
      · rw [List.mem_singleton.mp hr] at hi
        have : decodeRequest [0x99] = .error .illegalOp := by decide
        rw [this] at hi; cases hi
    | 1, hk, _ => exact absurd rfl hk
    | k + 2, _, hq => cases hq

theorem witness_InterleavedFeedsRefineByteList :
    Inv (writerState [0x11, 0xEF, 0x03] [[0x00], []])
    ∧ SingleWriter 1 [[0x00], []] (writerState [0x11, 0xEF, 0x03] [[0x00], []])
    ∧ validBytes (writerState [0x11, 0xEF, 0x03] [[0x00], []]) = .ok [0x11, 0xEF, 0x03] :=
  ⟨⟨⟨by decide, by decide, ⟨[0x11, 0xEF, 0x03], by decide, .inr (by decide)⟩⟩, by decide⟩,
    writerState_singleWriter _ (by decide), by decide⟩

theorem witness_SplitFrameIsDeliveredOnce :
    let before := [payloadFrame.take 1, [], (payloadFrame.drop 1).take 7]
    let chunks := before ++ payloadFrame.drop 8 :: [[], []]
    wellFormedFrame payloadFrame = true ∧ payloadFrame.length ≤ 512 ∧ Inv (writerState [] chunks)
    ∧ (writerState [] chunks).rxLen = 0 ∧ before.flatten ++ payloadFrame.drop 8 = payloadFrame
    ∧ payloadFrame.drop 8 ≠ [] ∧ (∀ c ∈ ([[], []] : List Bytes), c = [])
    ∧ SingleWriter 1 chunks (writerState [] chunks) :=
  ⟨by decide, by decide, ⟨⟨by decide, by decide, ⟨[], by decide, .inl (by decide)⟩⟩, by decide⟩, by decide, by decide,
    by decide, by decide, writerState_singleWriter _ (by decide)⟩

theorem witness_GarbageIsReportedOnce :
    let before : List Bytes := [[0x00, 0x01], [0x02]]
    let last : Bytes := [0x03, 0x04, 0x05, 0x06, 0x07, 0x08]
    let s := writerState [] (before ++ [last])
    Inv s ∧ s.rxLen = 0 ∧ before.flatten.length < 9 ∧ 9 ≤ (before.flatten ++ last).length
    ∧ (before.flatten ++ last).length ≤ 512 ∧ byteAt (before.flatten ++ last) 0 ≠ 0x11
    ∧ SingleWriter 1 (before ++ [last]) s :=
  ⟨⟨⟨by decide, by decide, ⟨[], by decide, .inl (by decide)⟩⟩, by decide⟩, by decide, by decide, by decide, by decide,
    by decide, writerState_singleWriter _ (by decide)⟩

/-- One valid byte over different stale ones. -/
theorem witness_StaleBytesUnobservable :
    Inv { sample [0x11, 0xEF] [[0x06]] with rxLen := 1 } ∧ Inv { sample [0x11, 0xAA] [[0x06]] with rxLen := 1 }
    ∧ SameView { sample [0x11, 0xEF] [[0x06]] with rxLen := 1 } { sample [0x11, 0xAA] [[0x06]] with rxLen := 1 }
    ∧ (sample [0x11, 0xEF] []).rxBuf ≠ (sample [0x11, 0xAA] []).rxBuf :=
  ⟨⟨⟨by decide, by decide, ⟨[0x11], by decide, .inr (by decide)⟩⟩, by decide⟩,
    ⟨⟨by decide, by decide, ⟨[0x11], by decide, .inr (by decide)⟩⟩, by decide⟩,
    ⟨by decide, by decide, by decide, by decide, by decide, by decide, by decide⟩, by decide⟩

theorem witness_RxresetIndistinguishableFromReset :
    BufferInv (sample [0x11, 0xEF, 0x03] []) ∧ (sample [0x11, 0xEF, 0x03] []).resetIn = false :=
  ⟨sample_inv.buffer, rfl⟩

theorem witness_RunsNeverStop : Inv (sample [0x11, 0xEF, 0x03] []) := sample_inv

/-! ## Requests and steps -/

theorem witness_DecodeOfEncode : (Instr.feed (List.replicate 16777215 0x00)).wellFormed = true := by
  simp only [Instr.wellFormed, operandFits, length_zeros]
  decide

theorem witness_EncodeOfDecode : ∃ i, decodeRequest [0x05] = .ok i := ⟨.rxreset, by decide⟩

theorem witness_IllegalHeaderAnswered :
    ((0x00 : Byte) = 0 ∨ 7 ≤ (0x00 : Byte).toNat) ∧ ((0x07 : Byte) = 0 ∨ 7 ≤ (0x07 : Byte).toNat)
    ∧ (1 ≤ (0x01 : Byte).toNat ∧ (0x01 : Byte).toNat ≤ 6) ∧ (1 ≤ (0x06 : Byte).toNat ∧ (0x06 : Byte).toNat ≤ 6) := by
  decide

/-- Short of the fixed part, one byte off, and exact, for each format. -/
theorem witness_MalformedRequestAnswered :
    ((0x07 : Byte) = 0 ∨ 7 ≤ (0x07 : Byte).toNat)
    ∧ byteAt [0x01, 0x00, 0x00] 0 = 0x01 ∧ ([0x01, 0x00, 0x00] : Bytes).length < 4
    ∧ byteAt [0x04, 0x00, 0x00, 0x01] 0 = 0x04 ∧ ([0x04, 0x00, 0x00, 0x01] : Bytes).length ≠ 4 + be24 0x00 0x00 0x01
    ∧ byteAt [0x02, 0x00, 0x00, 0x00, 0x00] 0 = 0x02 ∧ ([0x02, 0x00, 0x00, 0x00, 0x00] : Bytes).length < 6
    ∧ byteAt [0x05, 0x00] 0 = 0x05 ∧ ([0x05, 0x00] : Bytes).length ≠ 1
    ∧ byteAt [0x06] 0 = 0x06 ∧ ([0x06] : Bytes).length = 1 := by decide

theorem witness_StepRunsDecodedRequest :
    ∃ taken t, (sample [0x11] [[0x06]]).resetIn = false
      ∧ acceptRequest (sample [0x11] [[0x06]]) = some (0, [0x06], taken)
      ∧ decodeRequest [0x06] = .ok .rxpeek ∧ exec .rxpeek taken = .next t
      ∧ t.responsePort = some [0x00, 0x00, 0x01, 0x11] ∧ (sample [0x11] [[0x06]]).requesters = [[0x06] :: []] :=
  ⟨_, _, rfl, acceptRequest_single rfl, by decide, rfl, by decide, rfl⟩

theorem witness_TakesOldestOfSomeRequester :
    ∃ taken, acceptRequest { sample [] [] with requesters := [[], [[0x06], [0x05]]] } = some (1, [0x06], taken) :=
  ⟨_, rfl⟩

theorem witness_EachStepAnswersOneRequest :
    Inv (sample [0x11, 0xEF, 0x03] [[0x06]]) ∧ (sample [0x11, 0xEF, 0x03] [[0x06]]).resetIn = false
    ∧ 0 < pendingCount (sample [0x11, 0xEF, 0x03] [[0x06]]) :=
  ⟨⟨⟨by decide, by decide, ⟨[0x11, 0xEF, 0x03], by decide, .inr (by decide)⟩⟩, by decide⟩, rfl, by decide⟩

theorem witness_IdleStepChangesNothing :
    (sample [0x11] []).resetIn = false ∧ pendingCount (sample [0x11] []) = 0 := by decide

theorem witness_ResetInputEmptiesBuffer : ({ sample [0x11] [] with resetIn := true } : State).resetIn = true := rfl

end Sys2Proof.Tests
end

section
/-! PROOFS. The byte order of spec/00_scope.md R11: the model splits with `/`, the rule with bit slices. -/

namespace Sys2Proof.Machine

open Sys2Proof

/-- The idea of R11's split: the bit slice `v[i+n-1:i]` is the quotient by `2^i`, kept to `n` bits. -/
theorem extractLsb'_eq_ofNat_div {w : Nat} (v : BitVec w) (i n : Nat) :
    v.extractLsb' i n = BitVec.ofNat n (v.toNat / 2 ^ i) := by
  rw [BitVec.extractLsb', Nat.shiftRight_eq_div_pow]

/-- `u16_bytes(v) = [v[15:8], v[7:0]]` (R11). -/
theorem u16Bytes_toNat (v : BitVec 16) : u16Bytes v.toNat = [v.extractLsb' 8 8, v.extractLsb' 0 8] := by
  simp only [extractLsb'_eq_ofNat_div, u16Bytes, Nat.reducePow, Nat.div_one]

/-- `u24_bytes(v) = [v[23:16], v[15:8], v[7:0]]` (R11). -/
theorem u24Bytes_toNat (v : BitVec 24) :
    u24Bytes v.toNat = [v.extractLsb' 16 8, v.extractLsb' 8 8, v.extractLsb' 0 8] := by
  simp only [extractLsb'_eq_ofNat_div, u24Bytes, Nat.reducePow, Nat.div_one]

/-- Settles O4: assembly is by definition, the split is bit slicing, and splitting undoes assembling. -/
theorem bigEndianFields : Obligations.BigEndianFields :=
  ⟨fun _ _ => rfl, fun _ _ _ => rfl, u16Bytes_toNat, u24Bytes_toNat, u16Bytes_be16, u24Bytes_be24⟩

end Sys2Proof.Machine
end

section
/-! PROOFS. The codec operations as responses (spec/10_state.md R29): what LRC, ENCODE and DECODE answer, once each, by
operands alone. -/

namespace Sys2Proof.Machine

open Sys2Proof

/-- LRC (R108). -/
theorem exec_lrc (s : State) (data : Bytes) : exec (.lrc data) s = .next (respond [0x00, lrc data] s) := rfl

/-- ENCODE of a payload whose length the header can carry (R109). -/
theorem exec_encode_of_fits (s : State) (command : Half) {payload : Bytes} (h : payload.length ≤ 65535) :
    exec (.encode command payload) s
      = .next (respond ([0x00] ++ u24Bytes (payload.length + 10) ++ build command 0 payload) s) :=
  if_neg (Nat.not_lt.mpr h)

/-- ENCODE of a longer payload (R109, conflict C6): PAYLOAD_TOO_LONG. -/
theorem exec_encode_of_tooLong (s : State) (command : Half) {payload : Bytes} (h : 65535 < payload.length) :
    exec (.encode command payload) s = .next (respond [0x20] s) :=
  if_pos h

/-- DECODE (R110). -/
theorem exec_decode (s : State) (data : Bytes) :
    exec (.decode data) s
      = .next (respond ([codeByte (decodeCode (decodeFrame data))] ++ decodeBody (decodeFrame data)) s) := rfl

/-- Settles O18: the response of each codec operation is fixed before the state is given; ENCODE's two cases split on
its payload's length, which is an operand. -/
theorem codecReadsNoState : Obligations.CodecReadsNoState := by
  rintro i (⟨data, rfl⟩ | ⟨command, payload, rfl⟩ | ⟨data, rfl⟩)
  · exact ⟨_, fun s => exec_lrc s data⟩
  · rcases Nat.lt_or_ge 65535 payload.length with hlong | hfits
    · exact ⟨_, fun s => exec_encode_of_tooLong s command hlong⟩
    · exact ⟨_, fun s => exec_encode_of_fits s command hfits⟩
  · exact ⟨_, fun s => exec_decode s data⟩

end Sys2Proof.Machine
end

section
/-! PROOFS. Byte 1 of a frame (spec/30_encoding.md R64): no check of the codec reads it, and a FRAME answer carries
it. -/

namespace Sys2Proof.Machine

open Sys2Proof

theorem byteAt_set_self {s : Bytes} {i : Nat} (b : Byte) (h : i < s.length) : byteAt (s.set i b) i = b := by
  simp only [byteAt, List.getD_eq_getElem?_getD, List.getElem?_set_self h, Option.getD_some]

theorem byteAt_set_other (s : Bytes) {i k : Nat} (b : Byte) (h : k ≠ i) : byteAt (s.set k b) i = byteAt s i := by
  simp only [byteAt, List.getD_eq_getElem?_getD, List.getElem?_set_ne h]

theorem slice_set_before (s : Bytes) {k i : Nat} (j : Nat) (b : Byte) (h : k < i) :
    slice (s.set k b) i j = slice s i j := by
  simp only [slice, List.drop_set_of_lt h]

theorem lengthField_set_one (f : Bytes) (b : Byte) : lengthField (f.set 1 b) = lengthField f := by
  simp only [lengthField, byteAt_set_other f b (show 1 ≠ 6 by decide), byteAt_set_other f b (show 1 ≠ 7 by decide)]

theorem lengthField_append {f : Bytes} (x : Bytes) (h : 8 ≤ f.length) : lengthField (f ++ x) = lengthField f := by
  simp only [lengthField, byteAt_append_left (show 6 < f.length by omega),
    byteAt_append_left (show 7 < f.length by omega)]

/-- Well-formedness (R63) with its numbers written out. -/
theorem wellFormedFrame_iff (f : Bytes) :
    wellFormedFrame f = true ↔ f.length = lengthField f + 10 ∧ byteAt f 0 = 0x11 ∧ byteAt f 8 = lrc (slice f 2 8)
      ∧ byteAt f (9 + lengthField f) = lrc (slice f 9 (9 + lengthField f)) := by
  rw [← frameLength_eq]
  simp only [wellFormedFrame, Bool.and_eq_true, decide_eq_true_eq, and_assoc]
  rfl

/-- Well-formedness reads the length, bytes 0, 6 to 8 and the last, and the bytes 2 to 7 and 9 on: never byte 1. -/
theorem wellFormedFrame_set_one (f : Bytes) (b : Byte) : wellFormedFrame (f.set 1 b) = wellFormedFrame f := by
  have h0 : byteAt (f.set 1 b) 0 = byteAt f 0 := byteAt_set_other f b (by decide)
  have h8 : byteAt (f.set 1 b) 8 = byteAt f 8 := byteAt_set_other f b (by decide)
  have hlast : byteAt (f.set 1 b) (9 + lengthField f) = byteAt f (9 + lengthField f) :=
    byteAt_set_other f b (by omega)
  have hhead : slice (f.set 1 b) 2 8 = slice f 2 8 := slice_set_before f 8 b (by decide)
  have hbody : slice (f.set 1 b) 9 (9 + lengthField f) = slice f 9 (9 + lengthField f) :=
    slice_set_before f _ b (by decide)
  rw [Bool.eq_iff_iff, wellFormedFrame_iff, wellFormedFrame_iff, List.length_set, lengthField_set_one, h0, h8, hlast,
    hhead, hbody]

/-- Bytes behind the length that the header claims change no field of the frame. -/
theorem frameFields_append {f : Bytes} (x : Bytes) (h : lengthField f + 10 ≤ f.length) :
    frameFields (f ++ x) = frameFields f := by
  have hn : lengthField (f ++ x) = lengthField f := lengthField_append x (by omega)
  have hbyte : ∀ i < 9, byteAt (f ++ x) i = byteAt f i := fun i hi => byteAt_append_left (by omega)
  have hpayload : slice (f ++ x) 9 (9 + lengthField f) = slice f 9 (9 + lengthField f) :=
    slice_append_left (by omega)
  simp only [frameFields, frameLength, hn, hpayload, hbyte _ (by decide : 1 < 9), hbyte _ (by decide : 2 < 9),
    hbyte _ (by decide : 3 < 9), hbyte _ (by decide : 4 < 9), hbyte _ (by decide : 5 < 9),
    hbyte _ (by decide : 6 < 9), hbyte _ (by decide : 7 < 9)]

/-- Once the bytes the header claims are there, the decoder reads no byte behind them (R106). -/
theorem decodeFrame_append {f : Bytes} (x : Bytes) (h : lengthField f + 10 ≤ f.length) :
    decodeFrame (f ++ x) = decodeFrame f := by
  have hn : lengthField (f ++ x) = lengthField f := lengthField_append x (by omega)
  have hlen : (f ++ x).length = f.length + x.length := List.length_append
  have hsof : byteAt (f ++ x) 0 = byteAt f 0 := byteAt_append_left (by omega)
  have hlrc2 : byteAt (f ++ x) 8 = byteAt f 8 := byteAt_append_left (by omega)
  have hlrc3 : byteAt (f ++ x) (9 + lengthField f) = byteAt f (9 + lengthField f) := byteAt_append_left (by omega)
  have hhead : slice (f ++ x) 2 8 = slice f 2 8 := slice_append_left (by omega)
  have hbody : slice (f ++ x) 9 (9 + lengthField f) = slice f 9 (9 + lengthField f) := slice_append_left (by omega)
  have hhdr : ¬ f.length < 9 ∧ ¬ (f ++ x).length < 9 := by omega
  have hall : ¬ f.length < lengthField f + 10 ∧ ¬ (f ++ x).length < lengthField f + 10 := by omega
  simp only [decodeFrame, Config.hdr, frameLength_eq, hn, hsof, hlrc2, hlrc3, hhead, hbody, frameFields_append x h,
    if_neg hhdr.1, if_neg hhdr.2, if_neg hall.1, if_neg hall.2]

/-- The decoder delivers a well-formed frame (R63, R104). -/
theorem decodeFrame_of_wellFormed {f : Bytes} (h : wellFormedFrame f = true) :
    decodeFrame f = .frame (frameFields f) := by
  obtain ⟨hlen, hsof, hlrc2, hlrc3⟩ := (wellFormedFrame_iff f).mp h
  rcases decodeFrame_cases f with ⟨hshort, -⟩ | ⟨-, hbad, -⟩ | ⟨-, -, hshort, -⟩ | ⟨-, -, hbad, -⟩
    | ⟨-, -, -, hbad, -⟩ | ⟨-, -, -, -, heq⟩
  · omega
  · exact absurd hsof hbad
  · omega
  · exact absurd hlrc2 hbad
  · exact absurd hlrc3 hbad
  · exact heq

/-- The frame is delivered with the value that byte 1 was given, whatever follows it. -/
theorem decodeFrame_set_one_append {f : Bytes} (h : wellFormedFrame f = true) (b : Byte) (x : Bytes) :
    ∃ r, decodeFrame (f.set 1 b ++ x) = .frame r ∧ r.lrc1 = b := by
  have hset : wellFormedFrame (f.set 1 b) = true := (wellFormedFrame_set_one f b).trans h
  obtain ⟨hlen, -⟩ := (wellFormedFrame_iff f).mp h
  obtain ⟨hlen', -⟩ := (wellFormedFrame_iff _).mp hset
  exact ⟨frameFields (f.set 1 b), (decodeFrame_append x hlen'.ge).trans (decodeFrame_of_wellFormed hset),
    byteAt_set_self b (by omega)⟩

/-- The response of a DECODE that delivers a frame begins with FRAME and byte 1 as received (R74, R110). -/
theorem exec_decode_of_frame {data : Bytes} {r : Frame} (h : decodeFrame data = .frame r) (s : State) :
    ∃ t rest, exec (.decode data) s = .next t ∧ t.responsePort = some (0x01 :: r.lrc1 :: rest) := by
  refine ⟨_, (frameBody r).tail, exec_decode s data, ?_⟩
  rw [h, respond_responsePort]
  rfl

/-- The response of a FEED that delivers a frame: FRAME, three status bytes, and byte 1 as received (R74, R75). -/
theorem feedResponse_frame (r : Frame) (ovf : Bool) (dropped : Nat) :
    ∃ fl hi lo rest, feedResponse (decodeCode (.frame r)) ovf dropped (decodeBody (.frame r))
      = 0x01 :: fl :: hi :: lo :: r.lrc1 :: rest :=
  ⟨flagsByte ovf, BitVec.ofNat 8 (dropped / 256), BitVec.ofNat 8 dropped, (frameBody r).tail, rfl⟩

/-- FEED delivers the frame its decoded bytes begin with: the valid bytes and the chunk, or after an overflow the chunk
alone (R131, R133). -/
theorem exec_feed_of_frame {s : State} {v chunk : Bytes} {r : Frame} (hv : validBytes s = .ok v)
    (hc : chunk.length ≤ 512)
    (h : decodeFrame (if 512 < v.length + chunk.length then chunk else v ++ chunk) = .frame r) :
    ∃ t ovf dropped, exec (.feed chunk) s = .next t
      ∧ t.responsePort = some (feedResponse (decodeCode (.frame r)) ovf dropped (decodeBody (.frame r))) := by
  rcases Nat.lt_or_ge 512 (v.length + chunk.length) with hover | hfits
  · rw [if_pos hover] at h
    rw [validBytes_length hv] at hover
    exact ⟨_, _, _, execFeed_overflows hover hc, by rw [h, respond_responsePort]⟩
  · rw [if_neg (Nat.not_lt.mpr hfits)] at h
    exact ⟨_, _, _, execFeed_fits hv hfits, by rw [h, respond_responsePort]⟩

/-- Settles O12: byte 1 is in no check, so the frame is delivered whatever it holds, by DECODE and by FEED. -/
theorem lrcOneNeverValidated : Obligations.LrcOneNeverValidated := by
  refine ⟨wellFormedFrame_set_one, fun f x b s hf => ?_, fun f x v chunk b s hf hv hc hfront => ?_⟩
  · obtain ⟨r, hr, rfl⟩ := decodeFrame_set_one_append hf b x
    exact exec_decode_of_frame hr s
  · obtain ⟨r, hr, rfl⟩ := decodeFrame_set_one_append hf b x
    obtain ⟨t, ovf, dropped, hexec, hport⟩ := exec_feed_of_frame hv hc (by rw [hfront]; exact hr)
    obtain ⟨fl, hi, lo, rest, hresponse⟩ := feedResponse_frame r ovf dropped
    exact ⟨t, fl, hi, lo, rest, hexec, hport.trans (congrArg some hresponse)⟩

end Sys2Proof.Machine
end

section
/-! PROOFS. The status fields of a FEED response (spec/30_encoding.md R75). -/

namespace Sys2Proof.Machine

open Sys2Proof

/-- What the fields of a FEED response say: one of six codes, and a body behind FRAME alone (R75). -/
structure FeedStatus (code : ResultCode) (body : Bytes) : Prop where
  code_mem : codeByte code ∈ ([0x01, 0x02, 0x10, 0x11, 0x12, 0x21] : Bytes)
  body_of_not_frame : codeByte code ≠ 0x01 → body = []

/-- The code and body of every decoder outcome fit a FEED response. -/
theorem feedStatus_decode (r : DecodeResult) : FeedStatus (decodeCode r) (decodeBody r) := by
  cases r with
  | incomplete => exact ⟨by decide, fun _ => rfl⟩
  | invalid why => exact ⟨by cases why <;> decide, fun _ => rfl⟩
  | frame f => exact ⟨(by decide : codeByte .frame ∈ _), fun h => absurd rfl h⟩

theorem feedStatus_chunkTooLong : FeedStatus .chunkTooLong [] := ⟨by decide, fun _ => rfl⟩

theorem feedOverflows_iff (chunk : Bytes) (s : State) :
    feedOverflows chunk s = true ↔ 512 < s.rxLen.toNat + chunk.length := decide_eq_true_iff

theorem feedDropped_of_overflow {chunk : Bytes} {s : State} (h : 512 < s.rxLen.toNat + chunk.length) :
    feedDropped chunk s = s.rxLen.toNat := if_pos (feedOverflows_true h)

theorem feedDropped_of_fits {chunk : Bytes} {s : State} (h : s.rxLen.toNat + chunk.length ≤ 512) :
    feedDropped chunk s = 0 := by
  rw [feedDropped, feedOverflows_false h]
  rfl

/-- OVF is bit 0 of the flags byte (R75). -/
theorem getLsbD_zero_flagsByte (ovf : Bool) : (flagsByte ovf).getLsbD 0 = ovf := by cases ovf <;> rfl

/-- Bits 7:1 of the flags byte are 0 (R75). -/
theorem extractLsb'_flagsByte (ovf : Bool) : (flagsByte ovf).extractLsb' 1 7 = 0 := by cases ovf <;> rfl

/-- Over readable valid bytes FEED completes, and its response is the status fields with one of R75's codes. -/
theorem exec_feed_response {s : State} {v : Bytes} (chunk : Bytes) (hv : validBytes s = .ok v) :
    ∃ t code body, exec (.feed chunk) s = .next t
      ∧ t.responsePort = some (feedResponse code (feedOverflows chunk s) (feedDropped chunk s) body)
      ∧ FeedStatus code body := by
  rcases Nat.lt_or_ge 512 chunk.length with hlong | hshort
  · have hover : 512 < s.rxLen.toNat + chunk.length := by omega
    refine ⟨_, _, _, execFeed_chunkTooLong hlong, ?_, feedStatus_chunkTooLong⟩
    rw [feedDropped_of_overflow hover, feedOverflows_true hover, respond_responsePort]
    simp only [feedResponse, codeByte, flagsByte, if_true, List.append_nil]
  rcases Nat.lt_or_ge 512 (s.rxLen.toNat + chunk.length) with hover | hfits
  · refine ⟨_, _, _, execFeed_overflows hover hshort, ?_, feedStatus_decode (decodeFrame chunk)⟩
    rw [feedDropped_of_overflow hover, feedOverflows_true hover, respond_responsePort]
  · have hfits' : v.length + chunk.length ≤ 512 := by rw [validBytes_length hv]; exact hfits
    refine ⟨_, _, _, execFeed_fits hv hfits', ?_, feedStatus_decode (decodeFrame (v ++ chunk))⟩
    rw [feedDropped_of_fits hfits, feedOverflows_false hfits, respond_responsePort]

/-- Settles O20: the fields one by one; the dropped count is the old cursor or 0, and the invariant bounds the
cursor. -/
theorem feedStatusFields : Obligations.FeedStatusFields := by
  intro s chunk hinv
  obtain ⟨v, hv, -⟩ := hinv.partialFrame
  obtain ⟨t, code, body, hexec, hport, hstatus⟩ := exec_feed_response chunk hv
  have hdropped : feedDropped chunk s ≤ 512 := by
    have hcursor : s.rxLen.toNat ≤ 512 := hinv.cursor
    unfold feedDropped
    split <;> omega
  refine ⟨t, codeByte code, flagsByte (feedOverflows chunk s), feedDropped chunk s, body, hexec, hport,
    hstatus.code_mem, ?_, extractLsb'_flagsByte _, feedDropped_of_overflow, feedDropped_of_fits, hdropped,
    hstatus.body_of_not_frame⟩
  rw [getLsbD_zero_flagsByte]
  exact feedOverflows_iff chunk s

end Sys2Proof.Machine
end

section
/-! PROOFS. The request decoder (spec/30_encoding.md R67 to R72): its header byte, and, for each format, when it
decodes and when it answers malformed. -/

namespace Sys2Proof

open Machine

/-! ## The header byte -/

theorem toNat_headerRsv (h : Byte) : (headerRsv h).toNat = h.toNat / 16 := by
  have := h.isLt
  simp only [headerRsv, BitVec.extractLsb'_toNat, Nat.shiftRight_eq_div_pow]
  omega

theorem toNat_headerOp (h : Byte) : (headerOp h).toNat = h.toNat % 16 := by
  simp only [headerOp, BitVec.extractLsb'_toNat, Nat.shiftRight_zero, Nat.reducePow]

theorem headerRsv_eq_zero_iff (h : Byte) : headerRsv h = 0 ↔ h.toNat < 16 := by
  rw [← BitVec.toNat_inj, toNat_headerRsv]
  simp only [BitVec.ofNat_eq_ofNat, BitVec.toNat_ofNat]
  omega

/-- The header byte of each operation selects it (R69). -/
theorem opOfHeader_headerByte (op : Op) : opOfHeader (headerByte op) = some op := by cases op <;> rfl

/-- A header byte selects an operation only by being that operation's, in all eight bits (R69): with `rsv` 0 the byte
is its `op` field. -/
theorem eq_headerByte_of_opOfHeader {h : Byte} {op : Op} (ho : opOfHeader h = some op) : h = headerByte op := by
  unfold opOfHeader at ho
  split at ho
  · cases ho
  · rename_i hrsv
    have hlow : h.toNat < 16 := (headerRsv_eq_zero_iff h).mp (not_not.mp hrsv)
    rw [toNat_headerOp, Nat.mod_eq_of_lt hlow] at ho
    split at ho <;> cases ho <;> exact BitVec.eq_of_toNat_eq ‹_›

/-- The headers 01 to 06 are the legal ones. -/
theorem exists_headerByte_iff (h : Byte) : (∃ op, h = headerByte op) ↔ 1 ≤ h.toNat ∧ h.toNat ≤ 6 := by
  constructor
  · rintro ⟨op, rfl⟩
    cases op <;> decide
  · rintro ⟨hlo, hhi⟩
    interval_cases hn : h.toNat
    · exact ⟨.lrc, BitVec.eq_of_toNat_eq hn⟩
    · exact ⟨.encode, BitVec.eq_of_toNat_eq hn⟩
    · exact ⟨.decode, BitVec.eq_of_toNat_eq hn⟩
    · exact ⟨.feed, BitVec.eq_of_toNat_eq hn⟩
    · exact ⟨.rxreset, BitVec.eq_of_toNat_eq hn⟩
    · exact ⟨.rxpeek, BitVec.eq_of_toNat_eq hn⟩

/-- A header that is no operation's selects none. -/
theorem opOfHeader_eq_none {h : Byte} (hne : ∀ op, h ≠ headerByte op) : opOfHeader h = none :=
  Option.eq_none_iff_forall_ne_some.mpr fun op ho => hne op (eq_headerByte_of_opOfHeader ho)

/-- R70: the headers 00 and 07 to FF are illegal. -/
theorem opOfHeader_of_illegal {h : Byte} (hill : h = 0 ∨ 7 ≤ h.toNat) : opOfHeader h = none := by
  refine opOfHeader_eq_none fun op hop => ?_
  obtain ⟨hlo, hhi⟩ := (exists_headerByte_iff h).mp ⟨op, hop⟩
  rcases hill with rfl | hge
  · exact absurd hlo (by decide)
  · omega

/-- R70's two descriptions of the illegal headers, by the fields and by the byte. -/
theorem illegal_fields_iff (h : Byte) :
    (headerRsv h ≠ 0 ∨ headerOp h = 0 ∨ 7 ≤ (headerOp h).toNat) ↔ (h = 0 ∨ 7 ≤ h.toNat) := by
  have hop : headerOp h = 0 ↔ h.toNat % 16 = 0 := by rw [← BitVec.toNat_inj, toNat_headerOp]; rfl
  have hzero : h = 0 ↔ h.toNat = 0 := by rw [← BitVec.toNat_inj]; rfl
  rw [Ne, headerRsv_eq_zero_iff, hop, toNat_headerOp, hzero]
  omega

/-! ## The operands -/

theorem decodeRequest_headerByte (op : Op) (body : Bytes) :
    decodeRequest (headerByte op :: body) = decodeOperands op body := by
  simp only [decodeRequest, opOfHeader_headerByte]

theorem decodeRequest_of_illegal {h : Byte} (hill : h = 0 ∨ 7 ≤ h.toNat) (body : Bytes) :
    decodeRequest (h :: body) = .error .illegalOp := by
  simp only [decodeRequest, opOfHeader_of_illegal hill]

/-- REQ_DATA (R68, R71): malformed when `N` is not all there or is not the number of the bytes after it. -/
theorem decodeData_eq (body : Bytes) :
    decodeData body =
      if body.length < 3 ∨ body.length ≠ 3 + be24 (byteAt body 0) (byteAt body 1) (byteAt body 2) then
        .error .malformed
      else .ok (body.drop 3) := by
  match body with
  | [] | [_] | [_, _] => rfl
  | a :: b :: c :: data =>
    have hiff : ((a :: b :: c :: data).length < 3 ∨ (a :: b :: c :: data).length ≠ 3 + be24 a b c)
        ↔ ¬ data.length = be24 a b c := by
      simp only [List.length_cons]
      omega
    exact (ite_not ..).symm.trans (if_congr hiff.symm rfl rfl)

/-- REQ_ENC (R68, R71): as REQ_DATA, with the command in front. -/
theorem decodeEnc_eq (body : Bytes) :
    decodeEnc body =
      if body.length < 5 ∨ body.length ≠ 5 + be24 (byteAt body 2) (byteAt body 3) (byteAt body 4) then
        .error .malformed
      else .ok (halfOf (byteAt body 0) (byteAt body 1), body.drop 5) := by
  match body with
  | [] | [_] | [_, _] | [_, _, _] | [_, _, _, _] => rfl
  | hi :: lo :: a :: b :: c :: payload =>
    have hiff : ((hi :: lo :: a :: b :: c :: payload).length < 5
          ∨ (hi :: lo :: a :: b :: c :: payload).length ≠ 5 + be24 a b c)
        ↔ ¬ payload.length = be24 a b c := by
      simp only [List.length_cons]
      omega
    exact (ite_not ..).symm.trans (if_congr hiff.symm rfl rfl)

/-- REQ_NONE (R68, R71): malformed when anything follows the header. -/
theorem decodeNone_eq (body : Bytes) :
    decodeNone body = if body.length ≠ 0 then .error .malformed else .ok () := by
  cases body <;> rfl

/-- Wrapping operands into an instruction keeps the condition on which they are malformed. -/
theorem map_ite_malformed {α : Type} (wrap : α → Instr) (bad : Prop) [Decidable bad] (x : α) :
    (if bad then Except.error RequestError.malformed else .ok x).map wrap
      = if bad then .error .malformed else .ok (wrap x) := by
  split <;> rfl

/-! ## The whole request -/

/-- An operation of format REQ_DATA, by the length of its request (R71). -/
theorem decodeRequest_reqData {op : Op} (hf : formatOf op = .reqData) (body : Bytes) :
    let req := headerByte op :: body
    ∃ i, decodeRequest req =
      if req.length < 4 ∨ req.length ≠ 4 + be24 (byteAt req 1) (byteAt req 2) (byteAt req 3) then .error .malformed
      else .ok i := by
  obtain ⟨wrap, hwrap⟩ : ∃ wrap : Bytes → Instr, decodeOperands op body = (decodeData body).map wrap := by
    cases op with
    | lrc => exact ⟨.lrc, rfl⟩
    | decode => exact ⟨.decode, rfl⟩
    | feed => exact ⟨.feed, rfl⟩
    | encode | rxreset | rxpeek => cases hf
  refine ⟨wrap (body.drop 3), ?_⟩
  rw [decodeRequest_headerByte, hwrap, decodeData_eq, map_ite_malformed]
  refine if_congr ?_ rfl rfl
  change _ ↔ body.length + 1 < 4 ∨ body.length + 1 ≠ 4 + be24 (byteAt body 0) (byteAt body 1) (byteAt body 2)
  omega

/-- An operation of format REQ_ENC, by the length of its request (R71). -/
theorem decodeRequest_reqEnc {op : Op} (hf : formatOf op = .reqEnc) (body : Bytes) :
    let req := headerByte op :: body
    ∃ i, decodeRequest req =
      if req.length < 6 ∨ req.length ≠ 6 + be24 (byteAt req 3) (byteAt req 4) (byteAt req 5) then .error .malformed
      else .ok i := by
  obtain ⟨wrap, hwrap⟩ : ∃ wrap : Half × Bytes → Instr, decodeOperands op body = (decodeEnc body).map wrap := by
    cases op with
    | encode => exact ⟨fun p => .encode p.1 p.2, rfl⟩
    | lrc | decode | feed | rxreset | rxpeek => cases hf
  refine ⟨wrap (halfOf (byteAt body 0) (byteAt body 1), body.drop 5), ?_⟩
  rw [decodeRequest_headerByte, hwrap, decodeEnc_eq, map_ite_malformed]
  refine if_congr ?_ rfl rfl
  change _ ↔ body.length + 1 < 6 ∨ body.length + 1 ≠ 6 + be24 (byteAt body 2) (byteAt body 3) (byteAt body 4)
  omega

/-- An operation of format REQ_NONE, by the length of its request (R71). -/
theorem decodeRequest_reqNone {op : Op} (hf : formatOf op = .reqNone) (body : Bytes) :
    let req := headerByte op :: body
    ∃ i, decodeRequest req = if req.length ≠ 1 then .error .malformed else .ok i := by
  obtain ⟨i, hi⟩ : ∃ i : Instr, decodeOperands op body = (decodeNone body).map fun _ => i := by
    cases op with
    | rxreset => exact ⟨.rxreset, rfl⟩
    | rxpeek => exact ⟨.rxpeek, rfl⟩
    | lrc | encode | decode | feed => cases hf
  refine ⟨i, ?_⟩
  rw [decodeRequest_headerByte, hi, decodeNone_eq, map_ite_malformed]
  refine if_congr ?_ rfl rfl
  change _ ↔ body.length + 1 ≠ 1
  omega

/-- With the header legal, the only error left is MALFORMED (the order of the checks in R71). -/
theorem decodeRequest_headerByte_ne_illegalOp (op : Op) (body : Bytes) :
    decodeRequest (headerByte op :: body) ≠ .error .illegalOp := by
  cases hf : formatOf op with
  | reqData =>
    obtain ⟨i, hi⟩ := decodeRequest_reqData hf body
    rw [hi]
    split <;> nofun
  | reqEnc =>
    obtain ⟨i, hi⟩ := decodeRequest_reqEnc hf body
    rw [hi]
    split <;> nofun
  | reqNone =>
    obtain ⟨i, hi⟩ := decodeRequest_reqNone hf body
    rw [hi]
    split <;> nofun

/-- A request whose byte 0 is an operation's header begins with it; the empty request's byte 0 counts as 0. -/
theorem exists_body_of_byteAt_zero {req : Bytes} {op : Op} (h : byteAt req 0 = headerByte op) :
    ∃ body, req = headerByte op :: body := by
  cases req with
  | nil => cases op <;> exact absurd h (by decide)
  | cons b body => exact ⟨body, congrArg (· :: body) h⟩

/-! ## The answers -/

/-- An illegal header is answered ILLEGAL_OP with the state unchanged (R70). -/
theorem perform_of_illegal {h : Byte} (hill : h = 0 ∨ 7 ≤ h.toNat) (body : Bytes) (s : State) :
    perform (h :: body) s = .next { s with responsePort := some [0x30] } :=
  perform_of_error (decodeRequest_of_illegal hill body) s

/-- A malformed request is answered MALFORMED with the state unchanged (R71). -/
theorem perform_of_malformed {req : Bytes} (h : decodeRequest req = .error .malformed) (s : State) :
    perform req s = .next { s with responsePort := some [0x31] } :=
  perform_of_error h s

/-- What R71 asks of a request, from its decoding. -/
theorem answer_of_decodeRequest {bad : Prop} [Decidable bad] {req : Bytes}
    (h : ∃ i, decodeRequest req = if bad then .error .malformed else .ok i) :
    if bad then ∀ s : State, perform req s = .next { s with responsePort := some [0x31] }
    else ∃ i, decodeRequest req = .ok i := by
  obtain ⟨i, hi⟩ := h
  split
  · rename_i hbad
    exact perform_of_malformed (hi.trans (if_pos hbad))
  · rename_i hgood
    exact ⟨i, hi.trans (if_neg hgood)⟩

/-- REQ_DATA's clause of R71. -/
theorem answer_reqData {op : Op} (hf : formatOf op = .reqData) {req : Bytes} (h : byteAt req 0 = headerByte op) :
    if req.length < 4 ∨ req.length ≠ 4 + be24 (byteAt req 1) (byteAt req 2) (byteAt req 3) then
      ∀ s : State, perform req s = .next { s with responsePort := some [0x31] }
    else ∃ i, decodeRequest req = .ok i := by
  obtain ⟨body, rfl⟩ := exists_body_of_byteAt_zero h
  exact answer_of_decodeRequest (decodeRequest_reqData hf body)

/-- REQ_ENC's clause of R71. -/
theorem answer_reqEnc {op : Op} (hf : formatOf op = .reqEnc) {req : Bytes} (h : byteAt req 0 = headerByte op) :
    if req.length < 6 ∨ req.length ≠ 6 + be24 (byteAt req 3) (byteAt req 4) (byteAt req 5) then
      ∀ s : State, perform req s = .next { s with responsePort := some [0x31] }
    else ∃ i, decodeRequest req = .ok i := by
  obtain ⟨body, rfl⟩ := exists_body_of_byteAt_zero h
  exact answer_of_decodeRequest (decodeRequest_reqEnc hf body)

/-- REQ_NONE's clause of R71. -/
theorem answer_reqNone {op : Op} (hf : formatOf op = .reqNone) {req : Bytes} (h : byteAt req 0 = headerByte op) :
    if req.length ≠ 1 then ∀ s : State, perform req s = .next { s with responsePort := some [0x31] }
    else ∃ i, decodeRequest req = .ok i := by
  obtain ⟨body, rfl⟩ := exists_body_of_byteAt_zero h
  exact answer_of_decodeRequest (decodeRequest_reqNone hf body)

/-! ## The statements -/

/-- Settles O47: the header is checked before the length, and each format's length test is its clause. -/
theorem malformedRequestAnswered : Obligations.MalformedRequestAnswered := by
  refine ⟨perform_of_malformed rfl, fun _ body hill => decodeRequest_of_illegal hill body, ?_,
    fun _ h => answer_reqEnc (op := .encode) rfl h, ?_⟩
  · rintro req (h | h | h)
    · exact answer_reqData (op := .lrc) rfl h
    · exact answer_reqData (op := .decode) rfl h
    · exact answer_reqData (op := .feed) rfl h
  · rintro req (h | h)
    · exact answer_reqNone (op := .rxreset) rfl h
    · exact answer_reqNone (op := .rxpeek) rfl h

/-- Settles O45: a header that selects an operation is that operation's byte, and any other differs from all six. -/
theorem operationMap : Obligations.OperationMap := by
  refine ⟨fun h => ?_, rfl, rfl, rfl, rfl, rfl, rfl⟩
  cases ho : opOfHeader h with
  | some op =>
    obtain rfl := eq_headerByte_of_opOfHeader ho
    cases op <;> rfl
  | none =>
    have hne : ∀ op, h ≠ headerByte op := fun op hop => by
      rw [hop, opOfHeader_headerByte] at ho
      cases ho
    exact ((if_neg (hne .lrc)).trans <| (if_neg (hne .encode)).trans <| (if_neg (hne .decode)).trans <|
      (if_neg (hne .feed)).trans <| (if_neg (hne .rxreset)).trans (if_neg (hne .rxpeek))).symm

/-- Settles O46: the two descriptions agree by the nibbles' values, and the legal headers are the operations'. -/
theorem illegalHeaderAnswered : Obligations.IllegalHeaderAnswered := by
  refine fun h body => ⟨illegal_fields_iff h, fun hill => perform_of_illegal hill body, fun hlegal => ?_⟩
  obtain ⟨op, rfl⟩ := (exists_headerByte_iff h).mpr hlegal
  exact decodeRequest_headerByte_ne_illegalOp op body

end Sys2Proof
end

section
/-! PROOFS. The checksum (spec/40_codec.md R100, R101): its value by the formula, and that it cancels the byte sum. -/

namespace Sys2Proof.Machine

open Sys2Proof

/-- The checksum is the additive inverse of the byte sum modulo 256 (R101). -/
theorem byteSum_add_lrc_mod (s : Bytes) : (byteSum s + (lrc s).toNat) % 256 = 0 := by
  rw [toNat_lrc]
  omega

/-- Checksum 0 says exactly that the bytes sum to a multiple of 256. -/
theorem lrc_eq_zero_iff (s : Bytes) : lrc s = 0x00 ↔ 256 ∣ byteSum s := by
  rw [← BitVec.toNat_inj, toNat_lrc, show (0x00 : Byte).toNat = 0 from rfl]
  omega

/-- The checksum's value over the bytes' unsigned values (R100). -/
theorem toNat_lrc_eq_sum (s : Bytes) : (lrc s).toNat = (256 - (s.map BitVec.toNat).sum % 256) % 256 := by
  rw [toNat_lrc, byteSum_eq_sum]

/-- A string with its checksum behind it has checksum 0 (R101). -/
theorem lrc_append_lrc (s : Bytes) : lrc (s ++ [lrc s]) = 0x00 := by
  rw [lrc_eq_zero_iff, byteSum_append, show byteSum [lrc s] = (lrc s).toNat from rfl]
  exact Nat.dvd_of_mod_eq_zero (byteSum_add_lrc_mod s)

/-- Settles O1: the model's byte sum is the sum of the bytes' unsigned values. -/
theorem checksumFormula : Obligations.ChecksumFormula :=
  ⟨toNat_lrc_eq_sum, (lrc_eq_zero_iff []).mpr (dvd_zero 256)⟩

/-- Settles O2: both forms say that the checksum cancels the byte sum. -/
theorem checksumCancelsByteSum : Obligations.ChecksumCancelsByteSum := by
  refine fun s => ⟨?_, lrc_append_lrc s⟩
  rw [← byteSum_eq_sum]
  exact byteSum_add_lrc_mod s

end Sys2Proof.Machine
end

section
/-! PROOFS. Requests with a byte-string operand decode to their instruction (spec/30_encoding.md R68, R72). -/

namespace Sys2Proof

open Machine

/-- REQ_DATA: the length field holds the length of the bytes behind it. -/
theorem decodeData_split {data : Bytes} (h : data.length ≤ 16777215) :
    decodeData (u24Bytes data.length ++ data) = .ok data :=
  if_pos (be24_split (Nat.lt_succ_of_le h)).symm

/-- REQ_ENC: as REQ_DATA, with the command's two bytes in front. -/
theorem decodeEnc_split (command : Half) {payload : Bytes} (h : payload.length ≤ 16777215) :
    decodeEnc (u16Bytes command.toNat ++ (u24Bytes payload.length ++ payload)) = .ok (command, payload) :=
  (if_pos (be24_split (Nat.lt_succ_of_le h)).symm).trans
    (congrArg (fun c => Except.ok (c, payload)) (halfOf_split command))

/-- An operation that wraps REQ_DATA's bytes into `wrap` decodes from its header, length and data. -/
theorem decodeRequest_encodeData {op : Op} {wrap : Bytes → Instr}
    (hwrap : ∀ body, decodeOperands op body = (decodeData body).map wrap) {data : Bytes}
    (h : data.length ≤ 16777215) : decodeRequest (encodeData op data) = .ok (wrap data) := by
  rw [encodeData, decodeRequest_headerByte, hwrap, decodeData_split h]
  rfl

/-- ENCODE decodes from its header, command, length and payload. -/
theorem decodeRequest_encodeEnc (command : Half) {payload : Bytes} (h : payload.length ≤ 16777215) :
    decodeRequest (encodeEnc .encode command payload) = .ok (.encode command payload) := by
  rw [encodeEnc, decodeRequest_headerByte, decodeOperands, decodeEnc_split command h]
  rfl

/-- LRC's request (R108). -/
theorem decodeRequest_lrc (data : Bytes) (h : data.length ≤ 16777215) :
    decodeRequest ([0x01] ++ u24Bytes data.length ++ data) = .ok (.lrc data) :=
  decodeRequest_encodeData (op := .lrc) (fun _ => rfl) h

/-- ENCODE's request (R109). -/
theorem decodeRequest_encode (command : Half) (payload : Bytes) (h : payload.length ≤ 16777215) :
    decodeRequest ([0x02, command.extractLsb' 8 8, command.extractLsb' 0 8] ++ u24Bytes payload.length ++ payload)
      = .ok (.encode command payload) := by
  have hreq := decodeRequest_encodeEnc command h
  rw [encodeEnc, u16Bytes_toNat] at hreq
  exact hreq

/-- DECODE's request (R110). -/
theorem decodeRequest_decode (data : Bytes) (h : data.length ≤ 16777215) :
    decodeRequest ([0x03] ++ u24Bytes data.length ++ data) = .ok (.decode data) :=
  decodeRequest_encodeData (op := .decode) (fun _ => rfl) h

end Sys2Proof
end

section
/-! PROOFS. The operations LRC and ENCODE (spec/40_codec.md R108, R109): their responses byte by byte. -/

namespace Sys2Proof.Machine

open Sys2Proof

/-- LRC's response, from the value of the checksum (R108). -/
theorem exec_lrc_of_value {data : Bytes} {c : Byte} (h : lrc data = c) (s : State) :
    exec (.lrc data) s = .next { s with responsePort := some [0x00, c] } :=
  h ▸ exec_lrc s data

/-- LRC of bytes that sum to a multiple of 256 responds checksum 0 (R108's corner cases). -/
theorem exec_lrc_of_dvd_sum {data : Bytes} (h : 256 ∣ (data.map BitVec.toNat).sum) (s : State) :
    exec (.lrc data) s = .next { s with responsePort := some [0x00, 0x00] } :=
  exec_lrc_of_value ((lrc_eq_zero_iff data).mpr (byteSum_eq_sum data ▸ h)) s

/-- 256 bytes 01 sum to 256. -/
theorem dvd_sum_replicate_one : 256 ∣ ((List.replicate 256 (0x01 : Byte)).map BitVec.toNat).sum := by
  rw [List.map_replicate, List.sum_replicate, smul_eq_mul]
  exact dvd_mul_right 256 _

/-- Settles O5: the response is the checksum by its formula; the corner cases sum to 0 modulo 256. -/
theorem lrcRespondsChecksum : Obligations.LrcRespondsChecksum :=
  ⟨decodeRequest_lrc,
    fun data s => ⟨lrc data, exec_lrc s data, toNat_lrc_eq_sum data⟩,
    fun _ s h => exec_lrc_of_dvd_sum h s,
    fun s => ⟨exec_lrc_of_dvd_sum (dvd_zero 256) s, exec_lrc_of_dvd_sum (by decide) s,
      exec_lrc_of_dvd_sum (by decide) s, exec_lrc_of_dvd_sum dvd_sum_replicate_one s,
      exec_lrc_of_value (by decide) s, exec_lrc_of_value (by decide) s⟩,
    decodeRequest_lrc [0x03, 0xE8, 0x00, 0x00, 0x00, 0x00] (by decide)⟩

/-- The six header bytes of a host-originated frame: command, status 0, payload length (R60, R109). -/
def encodeFields (command : Half) (n : Nat) : Bytes :=
  [command.extractLsb' 8 8, command.extractLsb' 0 8, 0x00, 0x00, BitVec.ofNat 8 (n / 256), BitVec.ofNat 8 n]

/-- `encodeFields` is what the builder writes for status 0. -/
theorem hdr6_zero_status (command : Half) (n : Nat) : hdr6 command 0 n = encodeFields command n := by
  rw [hdr6, u16Bytes_toNat command]
  rfl

/-- The frame that ENCODE builds, byte by byte (R103, R109). -/
theorem build_zero_status (command : Half) (p : Bytes) :
    build command 0 p = [0x11, 0xEF] ++ encodeFields command p.length ++ [lrc (encodeFields command p.length)]
      ++ p ++ [lrc p] := by
  rw [build, hdr6_zero_status]
  rfl

/-- ENCODE's response for a payload that fits, byte by byte (R109). -/
theorem exec_encode_fields (command : Half) {p : Bytes} (s : State) (h : p.length ≤ 65535) :
    exec (.encode command p) s = .next { s with responsePort := some ([0x00] ++ u24Bytes (p.length + 10)
      ++ ([0x11, 0xEF] ++ encodeFields command p.length ++ [lrc (encodeFields command p.length)]
        ++ p ++ [lrc p])) } := by
  rw [exec_encode_of_fits s command h, build_zero_status]
  rfl

/-- ENCODE of the empty payload: the frame has 10 bytes and its last checksum is 0 (R109's corner cases). -/
theorem exec_encode_nil (command : Half) (s : State) :
    exec (.encode command []) s = .next { s with responsePort := some ([0x00, 0x00, 0x00, 0x0A, 0x11, 0xEF]
      ++ encodeFields command 0 ++ [lrc (encodeFields command 0), 0x00]) } :=
  exec_encode_fields command s (Nat.zero_le _)

/-- ENCODE of the longest payload: the length field holds FFFF and the frame has 65545 bytes (R109's corner cases). -/
theorem exec_encode_longest (command : Half) {p : Bytes} (s : State) (h : p.length = 65535) :
    exec (.encode command p) s = .next { s with responsePort := some ([0x00, 0x01, 0x00, 0x09, 0x11, 0xEF]
      ++ encodeFields command 65535 ++ ([lrc (encodeFields command 65535)] ++ p ++ [lrc p])) } := by
  rw [exec_encode_fields command s h.le, h]
  rfl

/-- Settles O6: the builder's bytes for status 0, at every length and at the two ends. -/
theorem encodeRespondsFrame : Obligations.EncodeRespondsFrame := by
  refine ⟨decodeRequest_encode, fun command p s h => ⟨exec_encode_fields command s h, ?_⟩,
    fun command _ s h => exec_encode_of_tooLong s command h, exec_encode_nil, fun command p s h => ?_,
    exec_encode_nil 0, exec_encode_nil 1000, decodeRequest_encode 1000 [] (Nat.zero_le _)⟩
  · exact (congrArg List.length (build_zero_status command p)).symm.trans (length_build command 0 p)
  · refine ⟨[lrc (encodeFields command 65535)] ++ p ++ [lrc p], ?_, exec_encode_longest command s h⟩
    simp only [List.length_append, List.length_singleton, h]

end Sys2Proof.Machine
end

section
/-! PROOFS. The frame decoder (spec/40_codec.md R104) and the operation DECODE (R110): the checks in the spec's order,
and the response of each outcome. -/

namespace Sys2Proof.Machine

open Sys2Proof

/-- Settles O8: the model's checks are R104's, with the parameters' values and `T = n + 10` written out. -/
theorem decoderCheckOrder : Obligations.DecoderCheckOrder := by
  intro s
  simp only [decodeFrame, frameFields, frameLength_eq]
  rfl

/-- A slice begins with the byte at its start. -/
theorem slice_eq_cons {s : Bytes} {i j : Nat} (hij : i < j) (hi : i < s.length) :
    slice s i j = byteAt s i :: slice s (i + 1) j := by
  obtain ⟨k, rfl⟩ := Nat.exists_eq_add_of_lt hij
  simp only [slice, byteAt, List.drop_eq_getElem_cons hi, List.getD_eq_getElem s 0 hi,
    show i + k + 1 - i = k + 1 by omega, show i + k + 1 - (i + 1) = k by omega, List.take_succ_cons]

/-- Bytes 1 to 7 of a header, one by one. -/
theorem slice_one_eight {s : Bytes} (h : 8 ≤ s.length) :
    slice s 1 8 = [byteAt s 1, byteAt s 2, byteAt s 3, byteAt s 4, byteAt s 5, byteAt s 6, byteAt s 7] := by
  iterate 7 rw [slice_eq_cons (by decide) (by omega)]
  simp only [slice, Nat.sub_self, List.take_zero]

/-- The FRAME body repeats the received bytes 1 to 7 and the payload (R74, R110). -/
theorem frameBody_eq_slices {s : Bytes} (h : 8 ≤ s.length) :
    frameBody (frameFields s) = slice s 1 8 ++ slice s 9 (9 + lengthField s) := by
  rw [frameBody_frameFields, slice_one_eight h]

/-- DECODE's response by the conditions on the data, one outcome of R104 each. -/
theorem decodeResponse_eq (d : Bytes) :
    [codeByte (decodeCode (decodeFrame d))] ++ decodeBody (decodeFrame d) =
      if d.length < 9 then [0x02]
      else if byteAt d 0 ≠ 0x11 then [0x10]
      else if d.length < lengthField d + 10 then [0x02]
      else if byteAt d 8 ≠ lrc (slice d 2 8) then [0x11]
      else if byteAt d (9 + lengthField d) ≠ lrc (slice d 9 (9 + lengthField d)) then [0x12]
      else 0x01 :: (slice d 1 8 ++ slice d 9 (9 + lengthField d)) := by
  rcases decodeFrame_cases d with ⟨hshort, heq⟩ | ⟨hhdr, hsof, heq⟩ | ⟨hhdr, hsof, hpartial, heq⟩
    | ⟨hall, hsof, hlrc2, heq⟩ | ⟨hall, hsof, hlrc2, hlrc3, heq⟩ | ⟨hall, hsof, hlrc2, hlrc3, heq⟩
  · rw [heq, if_pos hshort]
    rfl
  · rw [heq, if_neg (Nat.not_lt.mpr hhdr), if_pos hsof]
    rfl
  · rw [heq, if_neg (Nat.not_lt.mpr hhdr), if_neg (not_not.mpr hsof), if_pos hpartial]
    rfl
  · rw [heq, if_neg (by omega), if_neg (not_not.mpr hsof), if_neg (Nat.not_lt.mpr hall), if_pos hlrc2]
    rfl
  · rw [heq, if_neg (by omega), if_neg (not_not.mpr hsof), if_neg (Nat.not_lt.mpr hall), if_neg (not_not.mpr hlrc2),
      if_pos hlrc3]
    rfl
  · rw [heq, if_neg (by omega), if_neg (not_not.mpr hsof), if_neg (Nat.not_lt.mpr hall), if_neg (not_not.mpr hlrc2),
      if_neg (not_not.mpr hlrc3), ← frameBody_eq_slices (by omega)]
    rfl

/-- DECODE's effect, from the bytes of its response (R110). -/
theorem exec_decode_of_response {d r : Bytes}
    (h : [codeByte (decodeCode (decodeFrame d))] ++ decodeBody (decodeFrame d) = r) (s : State) :
    exec (.decode d) s = .next { s with responsePort := some r } :=
  h ▸ exec_decode s d

/-- Settles O10: one response for each outcome of the decoder, whose cases are R104's. -/
theorem decodeRespondsOutcome : Obligations.DecodeRespondsOutcome :=
  ⟨decodeRequest_decode, fun d => exec_decode_of_response (decodeResponse_eq d),
    exec_decode_of_response (by decide)⟩

end Sys2Proof.Machine
end

section
/-! PROOFS. FEED (spec/41_reassembler.md R130 to R136): what it does over readable valid bytes, once, and that this is
the reassembler over the plain list of valid bytes (10_state.md R23). -/

namespace Sys2Proof.Machine

open Sys2Proof

variable {s t : State} {v chunk : Bytes}

/-! ## Over the plain list -/

/-- The bytes the overflow step leaves in the list (R131). -/
def listKept (valid chunk : Bytes) : Bytes := if decide (512 < valid.length + chunk.length) then [] else valid

/-- The bytes the disposition leaves in the list (R134). -/
def listDispose (r : DecodeResult) (bytes : Bytes) : Bytes :=
  match r with
  | .incomplete => bytes
  | .invalid _ => []
  | .frame _ => []

theorem length_listKept_append_le (v : Bytes) (h : chunk.length ≤ 512) :
    (listKept v chunk).length + chunk.length ≤ 512 := by
  by_cases hover : 512 < v.length + chunk.length
  · rw [listKept, decide_eq_true hover]
    simpa using h
  · rw [listKept, decide_eq_false hover]
    exact Nat.not_lt.mp hover

/-- `listFeed` of a chunk longer than the buffer (R132). -/
theorem listFeed_of_tooLong (v : Bytes) (h : 512 < chunk.length) :
    listFeed v chunk = ([], [0x21, 0x01] ++ u16Bytes v.length) := by
  have hover : 512 < v.length + chunk.length := by omega
  simp only [listFeed, if_pos h, hover, decide_true, if_true, List.cons_append, List.nil_append]

/-- `listFeed` of any other chunk, with the codes and bodies of the decoder's outcomes said by `decodeCode` and
`decodeBody`. -/
theorem listFeed_of_short (v : Bytes) (h : chunk.length ≤ 512) :
    listFeed v chunk =
      (listDispose (decodeFrame (listKept v chunk ++ chunk)) (listKept v chunk ++ chunk),
        feedResponse (decodeCode (decodeFrame (listKept v chunk ++ chunk))) (decide (512 < v.length + chunk.length))
          (if decide (512 < v.length + chunk.length) then v.length else 0)
          (decodeBody (decodeFrame (listKept v chunk ++ chunk)))) := by
  generalize hresult : decodeFrame (listKept v chunk ++ chunk) = r
  rw [listKept] at hresult
  simp only [listFeed, if_neg (Nat.not_lt.mpr h), hresult]
  cases r with
  | incomplete => rfl
  | invalid why => cases why <;> rfl
  | frame f => rfl

/-! ## The same steps over the buffer -/

theorem overflowStep_of_overflow (h : 512 < s.rxLen.toNat + chunk.length) :
    overflowStep chunk s = emptyBuffer s := if_pos (feedOverflows_true h)

theorem overflowStep_of_fits (h : s.rxLen.toNat + chunk.length ≤ 512) : overflowStep chunk s = s := by
  rw [overflowStep, feedOverflows_false h]
  rfl

/-- The overflow step empties the buffer as it empties the list. -/
theorem validBytes_overflowStep (hv : validBytes s = .ok v) (chunk : Bytes) :
    validBytes (overflowStep chunk s) = .ok (listKept v chunk) := by
  have hlen := validBytes_length hv
  rcases Nat.lt_or_ge 512 (s.rxLen.toNat + chunk.length) with hover | hfits
  · rw [overflowStep_of_overflow hover, listKept, hlen, decide_eq_true hover]
    exact validBytes_emptyBuffer
  · rw [overflowStep_of_fits hfits, listKept, hlen, decide_eq_false (Nat.not_lt.mpr hfits)]
    exact hv

/-- The disposition empties the buffer as it empties the list. -/
theorem validBytes_dispose (r : DecodeResult) (hv : validBytes s = .ok v) :
    validBytes (dispose r s) = .ok (listDispose r v) := by
  cases r with
  | incomplete => exact hv
  | invalid why => exact validBytes_emptyBuffer
  | frame f => exact validBytes_emptyBuffer

/-- The disposition changes no byte of the buffer (R134). -/
@[simp] theorem dispose_rxBuf (r : DecodeResult) (s : State) : (dispose r s).rxBuf = s.rxBuf := by
  cases r <;> rfl

/-- FEED of a chunk that is not too long (R130): overflow step, append, decode, disposition, response. -/
theorem execFeed_of_short (hv : validBytes s = .ok v) (h : chunk.length ≤ 512) :
    execFeed chunk s = .next (respond
      (feedResponse (decodeCode (decodeFrame (listKept v chunk ++ chunk))) (feedOverflows chunk s)
        (feedDropped chunk s) (decodeBody (decodeFrame (listKept v chunk ++ chunk))))
      (dispose (decodeFrame (listKept v chunk ++ chunk)) (appendChunk chunk (overflowStep chunk s)))) := by
  have hshort : ¬ Config.maxChunk < chunk.length := Nat.not_lt.mpr h
  have hbytes : validBytes (appendChunk chunk (overflowStep chunk s)) = .ok (listKept v chunk ++ chunk) :=
    validBytes_appendChunk (validBytes_overflowStep hv chunk) (length_listKept_append_le v h)
  simp only [execFeed, if_neg hshort, hbytes]

/-- Over readable valid bytes FEED completes, with the valid bytes and the response of `listFeed`. -/
theorem exec_feed_eq_listFeed (hv : validBytes s = .ok v) (chunk : Bytes) :
    ∃ t, exec (.feed chunk) s = .next t ∧ validBytes t = .ok (listFeed v chunk).1
      ∧ t.responsePort = some (listFeed v chunk).2 := by
  have hlen := validBytes_length hv
  rcases Nat.lt_or_ge 512 chunk.length with hlong | hshort
  · refine ⟨_, execFeed_chunkTooLong hlong, ?_⟩
    rw [listFeed_of_tooLong v hlong, hlen]
    exact ⟨validBytes_emptyBuffer, rfl⟩
  · refine ⟨_, execFeed_of_short hv hshort, ?_⟩
    have hbytes := validBytes_appendChunk (validBytes_overflowStep hv chunk) (length_listKept_append_le v hshort)
    rw [listFeed_of_short v hshort, respond_responsePort]
    refine ⟨validBytes_dispose _ hbytes, ?_⟩
    rw [hlen]
    rfl

/-! ## The bytes of the buffer -/

/-- FEED of a chunk that is too long writes no byte (R132). -/
theorem exec_feed_rxBuf_of_tooLong (h : exec (.feed chunk) s = .next t) (hlong : 512 < chunk.length) :
    t.rxBuf = s.rxBuf := by
  rcases execFeed_next h with ⟨-, rfl⟩ | ⟨hshort, -⟩ | ⟨hfits, -⟩
  · rfl
  · omega
  · omega

/-- FEED of any other chunk writes it at `feedStart` and writes nothing else (R133). -/
theorem exec_feed_rxBuf_of_short (h : exec (.feed chunk) s = .next t) (hshort : chunk.length ≤ 512) :
    t.rxBuf = memWrite s.rxBuf (feedStart s chunk) chunk := by
  rcases execFeed_next h with ⟨hlong, -⟩ | ⟨-, hover, rfl⟩ | ⟨hfits, w, -, rfl⟩
  · omega
  · rw [feedStart, overflowStep_of_overflow hover, respond_rxBuf, dispose_rxBuf, appendChunk_rxBuf, emptyBuffer_rxBuf]
  · rw [feedStart, overflowStep_of_fits hfits, respond_rxBuf, dispose_rxBuf, appendChunk_rxBuf]

/-- The chunk is stored inside the buffer. -/
theorem feedStart_add_length_le (s : State) (h : chunk.length ≤ 512) : feedStart s chunk + chunk.length ≤ 512 := by
  rcases Nat.lt_or_ge 512 (s.rxLen.toNat + chunk.length) with hover | hfits
  · rw [feedStart, overflowStep_of_overflow hover]
    simpa using h
  · rw [feedStart, overflowStep_of_fits hfits]
    exact hfits

/-! ## The statements -/

/-- FEED's request (R130). -/
theorem decodeRequest_feed (chunk : Bytes) (h : chunk.length ≤ 16777215) :
    decodeRequest ([0x04] ++ u24Bytes chunk.length ++ chunk) = .ok (.feed chunk) :=
  decodeRequest_encodeData (op := .feed) (fun _ => rfl) h

/-- The frame of R130's example over the empty list. -/
theorem listFeed_versionFrame :
    listFeed [] [0x11, 0xEF, 0x03, 0xE8, 0x00, 0x00, 0x00, 0x00, 0x15, 0x00]
      = ([], [0x01, 0x00, 0x00, 0x00, 0xEF, 0x03, 0xE8, 0x00, 0x00, 0x00, 0x00]) := by decide

/-- Settles O19: the list simulation gives the valid bytes, the cursor and the response; one write of the chunk at
`feedStart` gives the bytes of the buffer. -/
theorem feedRefinesByteList : Obligations.FeedRefinesByteList := by
  refine ⟨decodeRequest_feed, fun s v chunk hv => ?_, fun s hempty => ?_⟩
  · obtain ⟨t, hexec, hvalid, hport⟩ := exec_feed_eq_listFeed hv chunk
    refine ⟨t, hexec, hvalid, (validBytes_length hvalid).symm, hport, fun hlong k => ?_, fun hshort => ?_,
      exec_sameOutside hexec⟩
    · rw [exec_feed_rxBuf_of_tooLong hexec hlong]
    · have hroom : feedStart s chunk + chunk.length ≤ Config.cap := feedStart_add_length_le s hshort
      rw [exec_feed_rxBuf_of_short hexec hshort]
      exact ⟨fun j hj => readByte_memWrite_inside _ _ _ hj (by omega),
        fun k hk => readByte_memWrite_outside _ _ _ hk⟩
  · obtain ⟨t, hexec, hvalid, hport⟩ := exec_feed_eq_listFeed (validBytes_of_rxLen_zero hempty) _
    rw [listFeed_versionFrame] at hvalid hport
    exact ⟨t, hexec, BitVec.eq_of_toNat_eq (validBytes_length hvalid).symm, hport⟩

/-- After an overflow FEED goes on as on the emptied buffer, too long a chunk included; the responses differ in their
flag and dropped count alone (R131). -/
theorem execFeed_overflow_eq_emptied (h : 512 < s.rxLen.toNat + chunk.length) :
    ∃ code body after,
      execFeed chunk s = .next (respond (feedResponse code true s.rxLen.toNat body) after)
      ∧ execFeed chunk (emptyBuffer s)
          = .next (respond (feedResponse code (decide (512 < chunk.length)) 0 body) after) := by
  rcases Nat.lt_or_ge 512 chunk.length with hlong | hshort
  · refine ⟨.chunkTooLong, [], emptyBuffer s, execFeed_chunkTooLong hlong, ?_⟩
    rw [decide_eq_true hlong]
    exact execFeed_chunkTooLong hlong
  · refine ⟨_, _, _, execFeed_overflows h hshort, ?_⟩
    rw [decide_eq_false (Nat.not_lt.mpr hshort)]
    exact execFeed_fits (v := []) validBytes_emptyBuffer (by simpa using hshort)

/-- Settles O21: past 512 bytes by the comparison with the emptied buffer, within 512 by the status fields. -/
theorem feedOverflowDropsPartialFrame : Obligations.FeedOverflowDropsPartialFrame := by
  refine ⟨fun s chunk hover => ?_, fun s v chunk hv hfits => ?_⟩
  · obtain ⟨code, body, after, hexec, hemptied⟩ := execFeed_overflow_eq_emptied hover
    refine ⟨_, _, codeByte code, body, hexec, hemptied, rfl, ?_, rfl⟩
    simp only [respond_responsePort, feedResponse, flagsByte, decide_eq_true_eq]
    rfl
  · obtain ⟨t, code, body, hexec, hport, -⟩ := exec_feed_response chunk hv
    rw [feedOverflows_false hfits, feedDropped_of_fits hfits] at hport
    exact ⟨t, codeByte code, body, hexec, hport⟩

/-- Settles O22: the chunk-too-long step. -/
theorem feedChunkTooLong : Obligations.FeedChunkTooLong := fun _ _ h => execFeed_chunkTooLong h

/-- The decoder delivers the same frame from the frame's own bytes (R106). -/
theorem decodeFrame_take_consumed {w : Bytes} {f : Frame} (h : decodeFrame w = .frame f) :
    decodeFrame (w.take f.consumed) = .frame f := by
  obtain ⟨hlen, rfl⟩ := decodeFrame_eq_frame h
  have hconsumed : (frameFields w).consumed = lengthField w + 10 := frameLength_eq w
  have htake : (w.take (lengthField w + 10)).length = lengthField w + 10 := by
    rw [List.length_take, min_eq_left hlen]
  have hfield : lengthField (w.take (lengthField w + 10)) = lengthField w := by
    rw [← lengthField_append (w.drop (lengthField w + 10)) (by omega), List.take_append_drop]
  rw [hconsumed, ← decodeFrame_append (w.drop (lengthField w + 10)) (by omega), List.take_append_drop, h]

/-- Settles O23: FEED's answer is the decoder's, which reads no byte behind the frame. -/
theorem feedDropsTrailingBytes : Obligations.FeedDropsTrailingBytes := by
  intro s v chunk f hv hfits hframe _
  have hexec := execFeed_fits hv hfits
  rw [hframe] at hexec
  exact ⟨_, hexec, rfl, validBytes_emptyBuffer, rfl, decodeFrame_take_consumed hframe⟩

end Sys2Proof.Machine
end

section
/-! PROOFS. RXRESET and RXPEEK (spec/41_reassembler.md R139, R140): their requests and their answers. -/

namespace Sys2Proof.Machine

open Sys2Proof

/-- A REQ_NONE request is its header byte alone (R68, R71). -/
theorem decodeRequest_reqNone_cons {op : Op} (hf : formatOf op = .reqNone) (b : Byte) (bs : Bytes) :
    decodeRequest (headerByte op :: b :: bs) = .error .malformed := by
  obtain ⟨i, hi⟩ := decodeRequest_reqNone hf (b :: bs)
  rw [hi, if_pos (by simp)]

/-- RXRESET (R139). -/
theorem exec_rxreset (s : State) :
    exec .rxreset s = .next (respond ([0x00] ++ u16Bytes s.rxLen.toNat) (emptyBuffer s)) := execRxreset_eq s

/-- RXRESET of an empty buffer responds 00 00 00 and changes nothing (R139). -/
theorem exec_rxreset_of_empty {s : State} (h : s.rxLen = 0) :
    exec .rxreset s = .next (respond [0x00, 0x00, 0x00] s) := by
  have hs : emptyBuffer s = s := by rw [emptyBuffer, ← h]
  rw [exec_rxreset, hs, h]
  rfl

/-- Settles O28: the response and the emptied buffer; the other clauses are its values on given cursors. -/
theorem rxresetEmptiesBuffer : Obligations.RxresetEmptiesBuffer := by
  refine ⟨decodeRequest_headerByte .rxreset [], decodeRequest_reqNone_cons (op := .rxreset) rfl, exec_rxreset,
    fun s => exec_rxreset_of_empty, fun s t ht => ?_, fun s hsix => ?_⟩
  · cases ht
    exact exec_rxreset_of_empty rfl
  · refine ⟨_, exec_rxreset s, ?_, rfl⟩
    rw [hsix, respond_responsePort]
    rfl

/-- RXPEEK over readable valid bytes (R140), by those bytes alone. -/
theorem exec_rxpeek_ok {s : State} {v : Bytes} (hv : validBytes s = .ok v) :
    exec .rxpeek s = .next (respond ([0x00] ++ u16Bytes v.length ++ v) s) :=
  (execRxpeek_ok hv).trans (by rw [validBytes_length hv])

/-- A second RXPEEK reads the same buffer and answers the same (R140). -/
theorem exec_rxpeek_again {s t : State} (h : exec .rxpeek s = .next t) : exec .rxpeek t = .next t := by
  obtain ⟨v, hv, rfl⟩ := execRxpeek_next h
  exact execRxpeek_ok (hv : validBytes (respond _ s) = .ok v)

/-- Settles O29: the response is the valid bytes behind their number; the other clauses are its values on given
bytes. -/
theorem rxpeekReportsValidBytes : Obligations.RxpeekReportsValidBytes :=
  ⟨decodeRequest_headerByte .rxpeek [], decodeRequest_reqNone_cons (op := .rxpeek) rfl,
    fun _ _ hv => ⟨execRxpeek_ok hv, validBytes_length hv, validBytes_length_le hv⟩,
    fun _ hempty => exec_rxpeek_ok (validBytes_of_rxLen_zero hempty),
    fun _ _ => exec_rxpeek_again,
    fun _ => exec_rxpeek_ok⟩

end Sys2Proof.Machine
end

section
/-! PROOFS. The checksum's algebra (spec/40_codec.md R102): every fact is one about the byte sum modulo 256. -/

namespace Sys2Proof.Machine

open Sys2Proof

/-- Equal checksums are byte sums equal modulo 256. -/
theorem lrc_eq_iff (s t : Bytes) : lrc s = lrc t ↔ byteSum s % 256 = byteSum t % 256 := by
  rw [← BitVec.toNat_inj, toNat_lrc, toNat_lrc]
  omega

theorem byteSum_singleton (b : Byte) : byteSum [b] = b.toNat := rfl

theorem byteSum_perm {s t : Bytes} (h : s.Perm t) : byteSum s = byteSum t := by
  rw [byteSum_eq_sum, byteSum_eq_sum]
  exact (h.map BitVec.toNat).sum_eq

theorem byteSum_replicate_zero (k : Nat) : byteSum (List.replicate k 0x00) = 0 := by
  rw [byteSum_eq_sum, List.map_replicate, List.sum_replicate]
  exact smul_zero k

theorem byteSum_filter_ne_zero (s : Bytes) : byteSum (s.filter fun b => b ≠ 0x00) = byteSum s := by
  induction s with
  | nil => rfl
  | cons b bs ih =>
    by_cases hb : b = 0x00
    · rw [List.filter_cons_of_neg (by simp [hb]), ih, hb, byteSum]
      exact (Nat.zero_add _).symm
    · rw [List.filter_cons_of_pos (by simpa using hb), byteSum, byteSum, ih]

/-- Changing one byte trades its value for the new one in the sum. -/
theorem byteSum_set {s : Bytes} {i : Nat} (b : Byte) (h : i < s.length) :
    byteSum (s.set i b) + s[i].toNat = byteSum s + b.toNat := by
  induction s generalizing i with
  | nil => exact absurd h (Nat.not_lt_zero i)
  | cons c cs ih =>
    cases i with
    | zero =>
      simp only [List.set_cons_zero, byteSum, List.getElem_cons_zero]
      omega
    | succ i =>
      have := ih (i := i) (Nat.lt_of_succ_lt_succ h)
      simp only [List.set_cons_succ, byteSum, List.getElem_cons_succ]
      omega

/-- One changed byte changes the sum by less than 256, so it changes the checksum (R102). -/
theorem lrc_set_ne {s : Bytes} {i : Nat} {b : Byte} (h : i < s.length) (hb : b ≠ s[i]) : lrc (s.set i b) ≠ lrc s := by
  have hsum := byteSum_set b h
  have hval : b.toNat ≠ s[i].toNat := fun e => hb (BitVec.eq_of_toNat_eq e)
  have hnew := b.isLt
  have hold := s[i].isLt
  rw [Ne, lrc_eq_iff]
  omega

/-- Two changes that keep the sum of the two bytes keep the checksum (R102). -/
theorem lrc_compensated (s t u : Bytes) {a b a' b' : Byte} (h : a + b = a' + b') :
    lrc (s ++ [a] ++ t ++ [b] ++ u) = lrc (s ++ [a'] ++ t ++ [b'] ++ u) := by
  have hval := congrArg BitVec.toNat h
  rw [BitVec.toNat_add, BitVec.toNat_add] at hval
  rw [lrc_eq_iff]
  simp only [byteSum_append, byteSum_singleton]
  omega

/-- Settles O3: additivity and the rest, each from what it does to the byte sum. -/
theorem checksumAlgebra : Obligations.ChecksumAlgebra := by
  refine ⟨fun s t => ?_, fun s t h => ?_, fun s k => ?_, fun s => ?_, fun s i b h hb => lrc_set_ne h hb,
    fun s t u a b a' b' h => lrc_compensated s t u h⟩
  · rw [toNat_lrc, toNat_lrc, toNat_lrc, byteSum_append]
    omega
  · rw [lrc_eq_iff, byteSum_perm h]
  · rw [lrc_eq_iff, byteSum_append, byteSum_replicate_zero, Nat.add_zero]
  · rw [lrc_eq_iff, byteSum_filter_ne_zero]

end Sys2Proof.Machine
end

section
/-! PROOFS. The frame builder (spec/40_codec.md R103): the fields of a built frame, that it is well-formed, that it
decodes to what it was built from, and that its bytes sum to 0. -/

namespace Sys2Proof.Machine

open Sys2Proof

/-- The length field of a built frame (R60), for a payload whose length fits it. -/
theorem lengthField_build (c st : Half) {p : Bytes} (h : p.length ≤ 65535) : lengthField (build c st p) = p.length :=
  be16_split (Nat.lt_succ_of_le h)

/-- The six header fields stand at bytes 2 to 7. -/
theorem slice_build_hdr6 (c st : Half) (p : Bytes) : slice (build c st p) 2 8 = hdr6 c st p.length := rfl

theorem slice_build_payload (c st : Half) (p : Bytes) : slice (build c st p) 9 (9 + p.length) = p := by
  rw [slice, Nat.add_sub_cancel_left]
  exact List.take_left

/-- The last byte is the payload's checksum. -/
theorem byteAt_build_last (c st : Half) (p : Bytes) : byteAt (build c st p) (9 + p.length) = lrc p := by
  have hfront : ([Config.sof, Config.lrc1Tx] ++ hdr6 c st p.length ++ [lrc (hdr6 c st p.length)] ++ p).length
      = 9 + p.length := by
    simp only [List.length_append, List.length_cons, List.length_nil, length_hdr6]
  rw [build, byteAt_append_right hfront.le, hfront, Nat.sub_self]
  rfl

/-- A built frame is well-formed (R63, R65). -/
theorem wellFormedFrame_build (c st : Half) {p : Bytes} (h : p.length ≤ 65535) :
    wellFormedFrame (build c st p) = true := by
  rw [wellFormedFrame_iff, lengthField_build c st h, slice_build_payload, slice_build_hdr6]
  exact ⟨length_build c st p, rfl, rfl, byteAt_build_last c st p⟩

/-- The received fields are those the frame was built from (R107). -/
theorem frameFields_build (c st : Half) {p : Bytes} (h : p.length ≤ 65535) :
    frameFields (build c st p) =
      { lrc1 := 0xEF, command := c, status := st, payloadLength := BitVec.ofNat 16 p.length, payload := p,
        consumed := p.length + 10 } := by
  have hcommand : halfOf (byteAt (build c st p) 2) (byteAt (build c st p) 3) = c := halfOf_split c
  have hstatus : halfOf (byteAt (build c st p) 4) (byteAt (build c st p) 5) = st := halfOf_split st
  have hlength : halfOf (byteAt (build c st p) 6) (byteAt (build c st p) 7) = BitVec.ofNat 16 p.length :=
    congrArg (BitVec.ofNat 16) (lengthField_build c st h)
  rw [frameFields, frameLength_eq, lengthField_build c st h, slice_build_payload, hcommand, hstatus, hlength]
  rfl

/-- A built frame decodes to its fields (R107). -/
theorem decodeFrame_build (c st : Half) {p : Bytes} (h : p.length ≤ 65535) :
    decodeFrame (build c st p) = .frame
      { lrc1 := 0xEF, command := c, status := st, payloadLength := BitVec.ofNat 16 p.length, payload := p,
        consumed := p.length + 10 } := by
  rw [decodeFrame_of_wellFormed (wellFormedFrame_build c st h), frameFields_build c st h]

/-- Settles O7: the response carries the built frame, whose bytes are R60's. -/
theorem encoderOutputWellFormed : Obligations.EncoderOutputWellFormed := by
  intro command p s h
  refine ⟨build command 0 p, ?_, length_build command 0 p, rfl, be16_split (v := 0) (by decide), rfl,
    byteAt_build_last command 0 p, wellFormedFrame_build command 0 h⟩
  rw [length_build]
  exact exec_encode_of_fits s command h

/-- Settles O15: the fields of the built frame, and that its length does not wrap. -/
theorem frameRoundTrip : Obligations.FrameRoundTrip := fun command _ h =>
  ⟨decodeFrame_build command 0 h, (BitVec.toNat_ofNat ..).trans (Nat.mod_eq_of_lt (Nat.lt_succ_of_le h))⟩

/-- Settles O17: SOF and lrc1 sum to 256, and each checksum cancels the bytes it stands behind. -/
theorem encodedFrameSumsToZero : Obligations.EncodedFrameSumsToZero := by
  intro command p _
  have hstart : byteSum [Config.sof, Config.lrc1Tx] = 256 := rfl
  have hheader := byteSum_add_lrc_mod (hdr6 command 0 p.length)
  have hpayload := byteSum_add_lrc_mod p
  rw [lrc_eq_zero_iff, build]
  simp only [byteSum_append, byteSum_singleton, hstart]
  omega

end Sys2Proof.Machine
end

section
/-! PROOFS. The decoder's outcomes (spec/40_codec.md R104), each from its own conditions, and what follows from them:
its corner cases, the well-formed frame, trailing bytes and one changed byte. -/

namespace Sys2Proof.Machine

open Sys2Proof

variable {s f : Bytes}

/-! ## One lemma per outcome -/

theorem decodeFrame_of_short (h : s.length < 9) : decodeFrame s = .incomplete := if_pos h

theorem decodeFrame_of_badSof (hlen : 9 ≤ s.length) (hsof : byteAt s 0 ≠ 0x11) : decodeFrame s = .invalid .badSof :=
  (if_neg (Nat.not_lt.mpr hlen)).trans (if_pos hsof)

/-- The length test comes before the checksum tests (R105). -/
theorem decodeFrame_of_claimed (hsof : byteAt s 0 = 0x11) (hlen : s.length < lengthField s + 10) :
    decodeFrame s = .incomplete := by
  rcases Nat.lt_or_ge s.length 9 with hshort | hhdr
  · exact decodeFrame_of_short hshort
  · rw [decoderCheckOrder s, if_neg (Nat.not_lt.mpr hhdr), if_neg (not_not.mpr hsof)]
    exact if_pos hlen

theorem decodeFrame_of_badLrc2 (hsof : byteAt s 0 = 0x11) (hlen : lengthField s + 10 ≤ s.length)
    (hlrc2 : byteAt s 8 ≠ lrc (slice s 2 8)) : decodeFrame s = .invalid .lrc2 := by
  rw [decoderCheckOrder s, if_neg (by omega), if_neg (not_not.mpr hsof)]
  exact (if_neg (Nat.not_lt.mpr hlen)).trans (if_pos hlrc2)

theorem decodeFrame_of_badLrc3 (hsof : byteAt s 0 = 0x11) (hlen : lengthField s + 10 ≤ s.length)
    (hlrc2 : byteAt s 8 = lrc (slice s 2 8))
    (hlrc3 : byteAt s (9 + lengthField s) ≠ lrc (slice s 9 (9 + lengthField s))) :
    decodeFrame s = .invalid .lrc3 := by
  rw [decoderCheckOrder s, if_neg (by omega), if_neg (not_not.mpr hsof)]
  exact (if_neg (Nat.not_lt.mpr hlen)).trans ((if_neg (not_not.mpr hlrc2)).trans (if_pos hlrc3))

theorem decodeFrame_of_checks (hlen : lengthField s + 10 ≤ s.length) (hsof : byteAt s 0 = 0x11)
    (hlrc2 : byteAt s 8 = lrc (slice s 2 8))
    (hlrc3 : byteAt s (9 + lengthField s) = lrc (slice s 9 (9 + lengthField s))) :
    decodeFrame s = .frame (frameFields s) := by
  have hhdr : ¬ s.length < Config.hdr := by simp only [Config.hdr]; omega
  have hframe : ¬ s.length < frameLength s := by rw [frameLength_eq]; omega
  exact (if_neg hhdr).trans ((if_neg (not_not.mpr hsof)).trans ((if_neg hframe).trans
    ((if_neg (not_not.mpr hlrc2)).trans (if_neg (not_not.mpr hlrc3)))))

/-- INCOMPLETE is too short a header, or a good SOF whose frame is not all there. -/
theorem decodeFrame_eq_incomplete_iff :
    decodeFrame s = .incomplete ↔ s.length < 9 ∨ byteAt s 0 = 0x11 ∧ s.length < lengthField s + 10 := by
  refine ⟨fun h => ?_, ?_⟩
  · rcases decodeFrame_cases s with ⟨hshort, -⟩ | ⟨-, -, heq⟩ | ⟨-, hsof, hlen, -⟩ | ⟨-, -, -, heq⟩
      | ⟨-, -, -, -, heq⟩ | ⟨-, -, -, -, heq⟩
    case inl => exact .inl hshort
    case inr.inr.inl => exact .inr ⟨hsof, hlen⟩
    all_goals rw [heq] at h; cases h
  · rintro (hshort | ⟨hsof, hlen⟩)
    · exact decodeFrame_of_short hshort
    · exact decodeFrame_of_claimed hsof hlen

/-- What a FRAME outcome says of the bytes. -/
theorem checks_of_frame {r : Frame} (h : decodeFrame s = .frame r) :
    lengthField s + 10 ≤ s.length ∧ byteAt s 0 = 0x11 ∧ byteAt s 8 = lrc (slice s 2 8)
      ∧ byteAt s (9 + lengthField s) = lrc (slice s 9 (9 + lengthField s)) := by
  rcases decodeFrame_cases s with ⟨-, heq⟩ | ⟨-, -, heq⟩ | ⟨-, -, -, heq⟩ | ⟨-, -, -, heq⟩
    | ⟨-, -, -, -, heq⟩ | ⟨hlen, hsof, hlrc2, hlrc3, -⟩
  case inr.inr.inr.inr.inr => exact ⟨hlen, hsof, hlrc2, hlrc3⟩
  all_goals rw [heq] at h; cases h

/-- Of a byte string of its own frame length the decoder delivers a frame exactly when it is well-formed. -/
theorem exists_frame_iff_wellFormed (hlen : f.length = lengthField f + 10) :
    (∃ r, decodeFrame f = .frame r) ↔ wellFormedFrame f = true := by
  refine ⟨fun ⟨r, hr⟩ => ?_, fun h => ⟨_, decodeFrame_of_wellFormed h⟩⟩
  obtain ⟨-, hchecks⟩ := checks_of_frame hr
  exact (wellFormedFrame_iff f).mpr ⟨hlen, hchecks⟩

/-! ## Bytes behind the claimed frame -/

theorem lengthField_take (s : Bytes) {n : Nat} (h : 8 ≤ n) : lengthField (s.take n) = lengthField s := by
  simp only [lengthField, byteAt_take (show 6 < n by omega), byteAt_take (show 7 < n by omega)]

/-- The claimed frame alone decodes as the bytes it stands in front of (R106). -/
theorem decodeFrame_take (h : lengthField s + 10 ≤ s.length) :
    decodeFrame (s.take (lengthField s + 10)) = decodeFrame s := by
  have hfield := lengthField_take s (show 8 ≤ lengthField s + 10 by omega)
  have htake : (s.take (lengthField s + 10)).length = lengthField s + 10 := by
    rw [List.length_take, min_eq_left h]
  rw [← decodeFrame_append (s.drop (lengthField s + 10)) (by rw [hfield, htake]), List.take_append_drop]

/-! ## One changed byte -/

theorem byteAt_eq_getElem {i : Nat} (h : i < s.length) : byteAt s i = s[i] := List.getD_eq_getElem s 0 h

/-- A byte changed inside a slice is changed there. -/
theorem slice_set_inside (s : Bytes) {i k : Nat} (j : Nat) (b : Byte) (h : i ≤ k) :
    slice (s.set k b) i j = (slice s i j).set (k - i) b := by
  simp only [slice, List.drop_set, if_neg (Nat.not_lt.mpr h), List.take_set]

theorem slice_set_after (s : Bytes) {i j k : Nat} (b : Byte) (hik : i ≤ k) (hjk : j ≤ k) :
    slice (s.set k b) i j = slice s i j := by
  rw [slice_set_inside s j b hik, List.set_eq_of_length_le]
  simp only [slice, List.length_take]
  omega

theorem byteAt_slice {i j k : Nat} (hij : i + k < j) : byteAt (slice s i j) k = byteAt s (i + k) := by
  rw [slice, byteAt_take (by omega)]
  simp only [byteAt, List.getD_eq_getElem?_getD, List.getElem?_drop]

/-- A byte changed inside a slice changes the slice's checksum (R102). -/
theorem lrc_slice_set_ne {i j k : Nat} {b : Byte} (hik : i ≤ k) (hkj : k < j) (hj : j ≤ s.length)
    (hb : b ≠ byteAt s k) : lrc (slice (s.set k b) i j) ≠ lrc (slice s i j) := by
  have hlen : k - i < (slice s i j).length := by rw [length_slice hj]; omega
  have hold : byteAt (slice s i j) (k - i) = byteAt s k := by
    rw [byteAt_slice (by omega), Nat.add_sub_cancel' hik]
  rw [slice_set_inside s j b hik]
  exact lrc_set_ne hlen (by rwa [← byteAt_eq_getElem hlen, hold])

theorem lengthField_set {i : Nat} (b : Byte) (h6 : i ≠ 6) (h7 : i ≠ 7) : lengthField (f.set i b) = lengthField f := by
  simp only [lengthField, byteAt_set_other f b h6, byteAt_set_other f b h7]

/-- Another SOF is BAD_SOF. -/
theorem decodeFrame_set_sof {b : Byte} (hf : wellFormedFrame f = true) (hi : 0 < f.length) (hb : b ≠ byteAt f 0) :
    decodeFrame (f.set 0 b) = .invalid .badSof := by
  obtain ⟨hlen, hsof, -⟩ := (wellFormedFrame_iff f).mp hf
  have hsize : (f.set 0 b).length = f.length := List.length_set
  refine decodeFrame_of_badSof (by omega) ?_
  rwa [byteAt_set_self b hi, ← hsof]

/-- A changed command, status or lrc2 byte fails the header's checksum. -/
theorem decodeFrame_set_header {i : Nat} {b : Byte} (hf : wellFormedFrame f = true) (hi : i < f.length)
    (hb : b ≠ byteAt f i) (h : (2 ≤ i ∧ i ≤ 5) ∨ i = 8) : decodeFrame (f.set i b) = .invalid .lrc2 := by
  obtain ⟨hlen, hsof, hlrc2, -⟩ := (wellFormedFrame_iff f).mp hf
  have hsize : (f.set i b).length = f.length := List.length_set
  have hfield : lengthField (f.set i b) = lengthField f := lengthField_set b (by omega) (by omega)
  refine decodeFrame_of_badLrc2 ((byteAt_set_other f b (by omega)).trans hsof) (by omega) ?_
  rcases h with ⟨hlo, hhi⟩ | rfl
  · rw [byteAt_set_other f b (by omega), hlrc2]
    exact (lrc_slice_set_ne hlo (by omega) (by omega) hb).symm
  · rwa [byteAt_set_self b hi, slice_set_after f b (by decide) (le_refl 8), ← hlrc2]

/-- A changed payload or lrc3 byte passes the header's checksum and fails the payload's. -/
theorem decodeFrame_set_body {i : Nat} {b : Byte} (hf : wellFormedFrame f = true) (hi : i < f.length)
    (hb : b ≠ byteAt f i) (h : 9 ≤ i) : decodeFrame (f.set i b) = .invalid .lrc3 := by
  obtain ⟨hlen, hsof, hlrc2, hlrc3⟩ := (wellFormedFrame_iff f).mp hf
  have hsize : (f.set i b).length = f.length := List.length_set
  have hfield : lengthField (f.set i b) = lengthField f := lengthField_set b (by omega) (by omega)
  refine decodeFrame_of_badLrc3 ((byteAt_set_other f b (by omega)).trans hsof) (by omega) ?_ ?_
  · rw [byteAt_set_other f b (by omega), hlrc2, slice_set_after f b (by omega) (by omega)]
  · rw [hfield]
    rcases Nat.lt_or_ge i (9 + lengthField f) with hinside | hlast
    · rw [byteAt_set_other f b (by omega), hlrc3]
      exact (lrc_slice_set_ne h hinside (by omega) hb).symm
    · obtain rfl : i = 9 + lengthField f := by omega
      rwa [byteAt_set_self b hi, slice_set_after f b h (le_refl _), ← hlrc3]

/-! ## The statements -/

/-- Settles O9: each case is one outcome's conditions. -/
theorem decoderCornerCases : Obligations.DecoderCornerCases := by
  refine ⟨rfl, fun s => decodeFrame_of_short, rfl, fun s => decodeFrame_of_badSof,
    fun s _ => decodeFrame_of_claimed, fun s hlen hsof hsix hseven hlrc2 => ?_, fun s => ?_,
    [0, 0, 0, 0, 0, 0, 0xFF, 0xFF], rfl⟩
  · have hempty : lengthField s = 0 := by rw [lengthField, hsix, hseven]; rfl
    have hwhole : lengthField s + 10 ≤ s.length := by omega
    have hpayload : lrc (slice s 9 (9 + lengthField s)) = 0x00 := by
      rw [slice, hempty, Nat.sub_self, List.take_zero]; rfl
    refine ⟨by rw [frameLength_eq, hempty], fun ⟨r, hr⟩ => ?_, fun hlast => ?_⟩
    · obtain ⟨-, -, -, hlrc3⟩ := checks_of_frame hr
      rwa [hpayload, hempty] at hlrc3
    · have hlrc3 : byteAt s (9 + lengthField s) = lrc (slice s 9 (9 + lengthField s)) := by
        rw [hpayload, hempty, hlast]
      exact ⟨_, decodeFrame_of_checks hwhole hsof hlrc2 hlrc3⟩
  · have := lengthField_lt s
    rw [frameLength_eq]
    omega

/-- Settles O11: a FRAME carries the fields of the bytes, and passed the decoder's checks. -/
theorem frameBodyLayout : Obligations.FrameBodyLayout := by
  intro s f h
  obtain ⟨hlen, hsof, hlrc2, hlrc3⟩ := checks_of_frame h
  obtain ⟨-, rfl⟩ := decodeFrame_eq_frame h
  have hpayload : (slice s 9 (9 + lengthField s)).length = lengthField s := by
    rw [length_slice (by omega), Nat.add_sub_cancel_left]
  have hpair : ∀ i, i + 2 ≤ 8 → slice s i (i + 2) = [byteAt s i, byteAt s (i + 1)] := fun i hi => by
    rw [slice_eq_cons (by omega) (by omega), slice_eq_cons (by omega) (by omega)]
    simp only [slice, Nat.sub_self, List.take_zero]
  refine ⟨?_, ?_, hsof, hlrc2, hlrc3⟩
  · rw [frameBody_frameFields, hpair 2 (by decide), hpair 4 (by decide), hpair 6 (by decide)]
    rfl
  · rw [frameBody_frameFields, List.length_append, hpayload]
    rfl

/-- Settles O13: the checks of R63 and those of R104 are the same, and trailing bytes are not read. -/
theorem decoderAcceptsExactlyWellFormed : Obligations.DecoderAcceptsExactlyWellFormed := by
  refine ⟨fun f hlen => ⟨?_, exists_frame_iff_wellFormed hlen⟩, fun s => ⟨fun ⟨r, hr⟩ => ?_, ?_⟩⟩
  · rw [wellFormedFrame_iff]
    exact and_iff_right hlen
  · obtain ⟨hlen, -⟩ := checks_of_frame hr
    have hown : (s.take (lengthField s + 10)).length = lengthField (s.take (lengthField s + 10)) + 10 := by
      rw [lengthField_take s (by omega), List.length_take, min_eq_left hlen]
    exact ⟨by omega, hlen, (exists_frame_iff_wellFormed hown).mp ⟨r, (decodeFrame_take hlen).trans hr⟩⟩
  · rintro ⟨-, hlen, hwf⟩
    exact ⟨_, (decodeFrame_take hlen).symm.trans (decodeFrame_of_wellFormed hwf)⟩

/-- Settles O14: the decoder reads no byte behind `T`, and a FRAME's `consumed` is `T`. -/
theorem decoderIgnoresTrailingBytes : Obligations.DecoderIgnoresTrailingBytes := by
  intro s x _ hlen
  have happend := decodeFrame_append x hlen
  refine ⟨happend, fun f hf => ?_⟩
  obtain ⟨-, rfl⟩ := decodeFrame_eq_frame (happend.symm.trans hf)
  exact frameLength_eq s

/-- Settles O16: the length field is untouched, so the changed frame fails at the first check that reads the byte. -/
theorem singleByteCorruptionDetected : Obligations.SingleByteCorruptionDetected := by
  refine fun f i b hf hi hb => ⟨?_, decodeFrame_set_header hf hi hb, decodeFrame_set_body hf hi hb⟩
  rintro rfl
  exact decodeFrame_set_sof hf hi hb

end Sys2Proof.Machine
end

section
/-! PROOFS. Requests and instructions (spec/30_encoding.md R67 to R72, R77): decoding undoes encoding and encoding
undoes decoding. -/

namespace Sys2Proof

open Machine

/-- Settles O42: the length field of each format holds the operand's length. -/
theorem decodeOfEncode : Obligations.DecodeOfEncode := by
  intro i hwf
  cases i with
  | lrc data => exact decodeRequest_lrc data (of_decide_eq_true hwf)
  | encode command payload => exact decodeRequest_encodeEnc command (of_decide_eq_true hwf)
  | decode data => exact decodeRequest_decode data (of_decide_eq_true hwf)
  | feed chunk => exact decodeRequest_feed chunk (of_decide_eq_true hwf)
  | rxreset => exact decodeRequest_headerByte .rxreset []
  | rxpeek => exact decodeRequest_headerByte .rxpeek []

/-- REQ_DATA's operand determines the bytes after the header, and fits the length field. -/
theorem eq_of_decodeData {body data : Bytes} (h : decodeData body = .ok data) :
    body = u24Bytes data.length ++ data ∧ data.length ≤ Config.len24Max := by
  match body with
  | [] | [_] | [_, _] => cases h
  | a :: b :: c :: rest =>
    rw [decodeData] at h
    split at h
    · rename_i hlen
      cases h
      rw [hlen, u24Bytes_be24]
      exact ⟨rfl, Nat.le_of_lt_succ (be24_lt a b c)⟩
    · cases h

/-- REQ_ENC's operands determine the bytes after the header, and the payload fits the length field. -/
theorem eq_of_decodeEnc {body payload : Bytes} {command : Half} (h : decodeEnc body = .ok (command, payload)) :
    body = u16Bytes command.toNat ++ (u24Bytes payload.length ++ payload) ∧ payload.length ≤ Config.len24Max := by
  match body with
  | [] | [_] | [_, _] | [_, _, _] | [_, _, _, _] => cases h
  | hi :: lo :: a :: b :: c :: rest =>
    rw [decodeEnc] at h
    split at h
    · rename_i hlen
      cases h
      rw [hlen, u24Bytes_be24, toNat_halfOf, u16Bytes_be16]
      exact ⟨rfl, Nat.le_of_lt_succ (be24_lt a b c)⟩
    · cases h

theorem eq_of_decodeNone {body : Bytes} {u : Unit} (h : decodeNone body = .ok u) : body = [] := by
  cases body with
  | nil => rfl
  | cons b bs => cases h

/-- Wrapping operands into an instruction answers only what the operands' decoder answered. -/
theorem exists_of_map_eq_ok {α : Type} {x : Except RequestError α} {wrap : α → Instr} {i : Instr}
    (h : x.map wrap = .ok i) : ∃ a, x = .ok a ∧ i = wrap a := by
  cases x with
  | error e => cases h
  | ok a => cases h; exact ⟨a, rfl, rfl⟩

/-- A request that decodes has a legal header, and its operands decode. -/
theorem exists_op_of_decodeRequest {req : Bytes} {i : Instr} (h : decodeRequest req = .ok i) :
    ∃ op body, req = headerByte op :: body ∧ decodeOperands op body = .ok i := by
  cases req with
  | nil => cases h
  | cons b body =>
    cases ho : opOfHeader b with
    | none => simp only [decodeRequest, ho] at h; cases h
    | some op =>
      obtain rfl := eq_headerByte_of_opOfHeader ho
      exact ⟨op, body, rfl, (decodeRequest_headerByte op body).symm.trans h⟩

/-- Settles O43: the header byte is the operation's, and the operands' bytes are those the encoder writes. -/
theorem encodeOfDecode : Obligations.EncodeOfDecode := by
  intro req i h
  obtain ⟨op, body, rfl, hops⟩ := exists_op_of_decodeRequest h
  cases op with
  | lrc | decode | feed =>
    obtain ⟨data, hdata, rfl⟩ := exists_of_map_eq_ok hops
    obtain ⟨rfl, hfits⟩ := eq_of_decodeData hdata
    exact ⟨rfl, decide_eq_true hfits⟩
  | encode =>
    obtain ⟨⟨command, payload⟩, hdata, rfl⟩ := exists_of_map_eq_ok hops
    obtain ⟨rfl, hfits⟩ := eq_of_decodeEnc hdata
    exact ⟨rfl, decide_eq_true hfits⟩
  | rxreset | rxpeek =>
    obtain ⟨u, hnone, rfl⟩ := exists_of_map_eq_ok hops
    obtain rfl := eq_of_decodeNone hnone
    exact ⟨rfl, rfl⟩

/-- Settles O44: each request is the one its instruction encodes to. -/
theorem sampleRequestsDecode : Obligations.SampleRequestsDecode :=
  ⟨decodeOfEncode (.lrc [0x02, 0x03]) rfl, decodeOfEncode (.encode 1000 [0xFF]) rfl,
    decodeOfEncode (.decode [0x00, 0x01, 0x02]) rfl, decodeOfEncode (.feed [0x11, 0xEF, 0x03]) rfl,
    decodeOfEncode .rxreset rfl, decodeOfEncode .rxpeek rfl⟩

/-- Settles O48: three closed lines, assembled by evaluation. -/
theorem assemblerExample : Obligations.AssemblerExample := by
  unfold Obligations.AssemblerExample
  decide

end Sys2Proof
end

section
/-! PROOFS. Every request over the plain list of valid bytes (spec/10_state.md R23): what it answers and leaves, by
those bytes alone, and that the block does the same. -/

namespace Sys2Proof

open Machine

/-- One operation over the plain list of valid bytes: the valid bytes after it, and its response. -/
def listExec (valid : Bytes) : Instr → Bytes × Bytes
  | .lrc data => (valid, [0x00, lrc data])
  | .encode command payload =>
    (valid, if 65535 < payload.length then [0x20]
      else [0x00] ++ u24Bytes (payload.length + 10) ++ build command 0 payload)
  | .decode data => (valid, [codeByte (decodeCode (decodeFrame data))] ++ decodeBody (decodeFrame data))
  | .feed chunk => listFeed valid chunk
  | .rxreset => ([], [0x00] ++ u16Bytes valid.length)
  | .rxpeek => (valid, [0x00] ++ u16Bytes valid.length ++ valid)

/-- One request over the plain list of valid bytes. -/
def listPerform (valid req : Bytes) : Bytes × Bytes :=
  match decodeRequest req with
  | .ok i => listExec valid i
  | .error e => (valid, [codeByte (requestErrorCode e)])

theorem listPerform_of_decode {req : Bytes} {i : Instr} (h : decodeRequest req = .ok i) (v : Bytes) :
    listPerform v req = listExec v i := by
  simp only [listPerform, h]

theorem listPerform_of_error {req : Bytes} {e : RequestError} (h : decodeRequest req = .error e) (v : Bytes) :
    listPerform v req = (v, [codeByte (requestErrorCode e)]) := by
  simp only [listPerform, h]

/-! ## The responses -/

theorem listFeed_response_ne_nil (v chunk : Bytes) : (listFeed v chunk).2 ≠ [] := by
  rcases Nat.lt_or_ge 512 chunk.length with hlong | hshort
  · rw [listFeed_of_tooLong v hlong]
    nofun
  · rw [listFeed_of_short v hshort]
    nofun

/-- Every request has a response of at least one byte (R73). -/
theorem listPerform_response_ne_nil (v req : Bytes) : (listPerform v req).2 ≠ [] := by
  cases hd : decodeRequest req with
  | error e => rw [listPerform_of_error hd]; nofun
  | ok i =>
    rw [listPerform_of_decode hd]
    cases i with
    | lrc | decode | rxreset | rxpeek => nofun
    | encode command payload => rw [listExec]; split <;> nofun
    | feed chunk => exact listFeed_response_ne_nil v chunk

/-! ## The valid bytes between requests decode INCOMPLETE (R24) -/

/-- FEED leaves bytes that decode INCOMPLETE, whatever was there (R134). -/
theorem listFeed_incomplete (v chunk : Bytes) : decodeFrame (listFeed v chunk).1 = .incomplete := by
  rcases Nat.lt_or_ge 512 chunk.length with hlong | hshort
  · rw [listFeed_of_tooLong v hlong]
    rfl
  · rw [listFeed_of_short v hshort]
    cases hr : decodeFrame (listKept v chunk ++ chunk) with
    | incomplete => exact hr
    | invalid why => rfl
    | frame f => rfl

theorem listExec_incomplete {v : Bytes} (h : decodeFrame v = .incomplete) (i : Instr) :
    decodeFrame (listExec v i).1 = .incomplete := by
  cases i with
  | lrc | encode | decode | rxpeek => exact h
  | feed chunk => exact listFeed_incomplete v chunk
  | rxreset => rfl

end Sys2Proof

namespace Sys2Proof.Machine

open Sys2Proof

variable {s t : State} {v : Bytes}

/-! ## The block does what the list says -/

/-- Over readable valid bytes every operation completes, with the valid bytes and the response of `listExec`. -/
theorem exec_eq_listExec (hv : validBytes s = .ok v) (i : Instr) :
    ∃ t, exec i s = .next t ∧ validBytes t = .ok (listExec v i).1 ∧ t.responsePort = some (listExec v i).2 := by
  cases i with
  | lrc data => exact ⟨_, exec_lrc s data, hv, rfl⟩
  | encode command payload =>
    rw [listExec]
    split
    · rename_i hlong
      exact ⟨_, exec_encode_of_tooLong s command hlong, hv, rfl⟩
    · rename_i hfits
      exact ⟨_, exec_encode_of_fits s command (Nat.not_lt.mp hfits), hv, rfl⟩
  | decode data => exact ⟨_, exec_decode s data, hv, rfl⟩
  | feed chunk => exact exec_feed_eq_listFeed hv chunk
  | rxreset =>
    refine ⟨_, exec_rxreset s, validBytes_emptyBuffer, ?_⟩
    rw [listExec, validBytes_length hv]
    rfl
  | rxpeek => exact ⟨_, exec_rxpeek_ok hv, hv, rfl⟩

/-- Over readable valid bytes every request is answered, with the valid bytes and the response of `listPerform`. -/
theorem perform_eq_listPerform (hv : validBytes s = .ok v) (req : Bytes) :
    ∃ t, perform req s = .next t ∧ validBytes t = .ok (listPerform v req).1
      ∧ t.responsePort = some (listPerform v req).2 := by
  cases hd : decodeRequest req with
  | ok i =>
    rw [perform_of_decode hd, listPerform_of_decode hd]
    exact exec_eq_listExec hv i
  | error e =>
    rw [perform_of_error hd, listPerform_of_error hd]
    exact ⟨_, rfl, hv, rfl⟩

end Sys2Proof.Machine
end

section
/-! PROOFS. The invariant of the buffer (spec/10_state.md R21, R23, R24; 41_reassembler.md R144) and that every
operation and the reset input keep it. -/

namespace Sys2Proof.Machine

open Sys2Proof

variable {s t : State} {v : Bytes}

/-- The invariant in one form: the empty string decodes INCOMPLETE too, and readable bytes lie inside the buffer. -/
theorem bufferInv_iff (s : State) :
    BufferInv s ↔ s.rxBuf.wf = true ∧ ∃ v, validBytes s = .ok v ∧ decodeFrame v = .incomplete := by
  constructor
  · rintro ⟨-, hcells, v, hv, hempty | hpartial⟩
    · exact ⟨hcells, [], validBytes_of_rxLen_zero hempty, rfl⟩
    · exact ⟨hcells, v, hv, hpartial⟩
  · rintro ⟨hcells, v, hv, hpartial⟩
    exact ⟨(validBytes_length hv).ge.trans (validBytes_length_le hv), hcells, v, hv, .inr hpartial⟩

/-- The invariant speaks of the cursor and the buffer alone. -/
theorem bufferInv_congr (hl : t.rxLen = s.rxLen) (hb : t.rxBuf = s.rxBuf) (h : BufferInv s) : BufferInv t := by
  rw [bufferInv_iff] at h ⊢
  rwa [hb, validBytes_congr hl hb]

/-- An empty buffer meets the invariant over any cells in canonical form. -/
theorem bufferInv_of_empty (hl : s.rxLen = 0) (hcells : s.rxBuf.wf = true) : BufferInv s :=
  (bufferInv_iff s).mpr ⟨hcells, [], validBytes_of_rxLen_zero hl, rfl⟩

/-- LRC, ENCODE, DECODE and RXPEEK respond and change nothing else (R29, R140). -/
theorem exec_eq_respond {i : Instr} (h : exec i s = .next t) (hfeed : ∀ chunk, i ≠ .feed chunk)
    (hreset : i ≠ .rxreset) : ∃ r, t = respond r s := by
  cases i with
  | lrc data => cases h; exact ⟨_, rfl⟩
  | encode command payload => exact execEncode_next h
  | decode data => cases h; exact ⟨_, rfl⟩
  | feed chunk => exact absurd rfl (hfeed chunk)
  | rxreset => exact absurd rfl hreset
  | rxpeek => obtain ⟨v, -, rfl⟩ := execRxpeek_next h; exact ⟨_, rfl⟩

/-- Every operation keeps the buffer's cells in canonical form: FEED writes inside the buffer, the others nowhere. -/
theorem exec_keeps_cells {i : Instr} (h : exec i s = .next t) (hcells : s.rxBuf.wf = true) : t.rxBuf.wf = true := by
  by_cases hfeed : ∃ chunk, i = .feed chunk
  · obtain ⟨chunk, rfl⟩ := hfeed
    rcases Nat.lt_or_ge 512 chunk.length with hlong | hshort
    · rwa [exec_feed_rxBuf_of_tooLong h hlong]
    · rw [exec_feed_rxBuf_of_short h hshort]
      exact wf_memWrite hcells (feedStart_add_length_le s hshort)
  · by_cases hreset : i = .rxreset
    · subst hreset; cases h; exact hcells
    · obtain ⟨r, rfl⟩ := exec_eq_respond h (fun chunk e => hfeed ⟨chunk, e⟩) hreset
      exact hcells

/-- Every operation keeps the buffer's invariant (R144). -/
theorem exec_keeps_bufferInv {i : Instr} (h : exec i s = .next t) (hinv : BufferInv s) : BufferInv t := by
  obtain ⟨hcells, v, hv, hpartial⟩ := (bufferInv_iff s).mp hinv
  obtain ⟨t', ht', hvalid, -⟩ := exec_eq_listExec hv i
  obtain rfl : t' = t := Host.Outcome.next.inj (ht'.symm.trans h)
  exact (bufferInv_iff t').mpr ⟨exec_keeps_cells h hcells, _, hvalid, listExec_incomplete hpartial i⟩

/-- Every request keeps the buffer's invariant, one that is no operation included. -/
theorem perform_keeps_bufferInv {req : Bytes} (h : perform req s = .next t) (hinv : BufferInv s) : BufferInv t := by
  cases hd : decodeRequest req with
  | ok i => exact exec_keeps_bufferInv ((perform_of_decode hd s).symm.trans h) hinv
  | error e =>
    rw [perform_of_error hd] at h
    cases h
    exact bufferInv_congr (s := s) rfl rfl hinv

/-- Settles O31: every operation completes over the readable valid bytes and keeps the invariant. -/
theorem operationsKeepBufferInvariant : Obligations.OperationsKeepBufferInvariant := by
  intro i s hinv
  obtain ⟨v, hv, -⟩ := hinv.partialFrame
  obtain ⟨t, ht, -⟩ := exec_eq_listExec hv i
  have hinv' := exec_keeps_bufferInv ht hinv
  refine ⟨t, ht, hinv', fun _ => hinv'.partialFrame, ?_, fun hfeed hreset => ?_⟩
  · rintro rfl
    cases ht
    rfl
  · obtain ⟨r, rfl⟩ := exec_eq_respond ht hfeed hreset
    exact ⟨rfl, rfl⟩

/-- The reset input leaves a state with the invariant (R180). -/
theorem inv_takeReset (s : State) : Inv (takeReset s) := ⟨bufferInv_of_empty rfl wf_reset, rfl⟩

/-- Settles O33: the reset state is its own reset, and no cell is listed. -/
theorem resetMeetsInvariant : Obligations.ResetMeetsInvariant :=
  ⟨inv_takeReset State.reset, rfl, rfl, fun _ hk => if_pos hk, rfl, rfl, rfl, rfl⟩

end Sys2Proof.Machine
end

section
/-! PROOFS. One step (spec/20_memory.md R49, R50; 70_reset_and_hazards.md R180, R182, R193): which request it takes,
what it does with it, and that it keeps the invariant. -/

namespace Sys2Proof.Machine

open Sys2Proof

variable {s t taken : State} {v : Bytes} {r : Nat} {req : Bytes}

/-! ## Taking a request -/

/-- The queue a request is taken from loses it; the others stay. -/
theorem modify_tail_eq_set {queues : List (List Bytes)} {rest : List Bytes} (h : queues[r]? = some (req :: rest)) :
    queues.modify r List.tail = queues.set r rest := by
  rw [List.modify_eq_set_getElem?, h]
  rfl

/-- The request taken is the oldest of its queue. -/
theorem acceptRequest_oldest (h : acceptRequest s = some (r, req, taken)) :
    ∃ rest, s.requesters[r]? = some (req :: rest)
      ∧ taken = { s with requesters := s.requesters.set r rest, turn := s.turn + 1 } := by
  obtain ⟨rest, hq, rfl⟩ := acceptRequest_some h
  exact ⟨rest, hq, by rw [modify_tail_eq_set hq]⟩

/-- None is taken only when none is pending. -/
theorem acceptRequest_eq_none_iff (s : State) : acceptRequest s = none ↔ ∀ q ∈ s.requesters, q = [] := by
  constructor
  · intro h q hq
    cases q with
    | nil => rfl
    | cons p ps =>
      obtain ⟨k, hk⟩ := List.mem_iff_getElem?.mp hq
      obtain ⟨r, req, taken, e⟩ := acceptRequest_isSome hk
      rw [h] at e
      cases e
  · intro h
    rw [Option.eq_none_iff_forall_ne_some]
    rintro ⟨r, req, taken⟩ e
    obtain ⟨rest, hq, -⟩ := acceptRequest_oldest e
    cases h _ (List.mem_of_getElem? hq)

/-- What is taken depends on the queues and the counter alone. -/
theorem acceptRequest_congr (hq : t.requesters = s.requesters) (ht : t.turn = s.turn)
    (h : acceptRequest s = some (r, req, taken)) :
    acceptRequest t = some (r, req, { t with requesters := taken.requesters, turn := taken.turn }) := by
  unfold acceptRequest at h ⊢
  rw [hq, ht]
  split at h
  · cases h
  · split at h
    · cases h
    · cases h; rfl

/-! ## How many requests are pending -/

/-- Taking one request from a queue leaves one fewer in all. -/
theorem sum_length_set {queues : List (List Bytes)} {rest : List Bytes} (h : queues[r]? = some (req :: rest)) :
    ((queues.set r rest).map List.length).sum + 1 = (queues.map List.length).sum := by
  induction queues generalizing r with
  | nil => cases h
  | cons q qs ih =>
    cases r with
    | zero =>
      cases h
      simp only [List.set_cons_zero, List.map_cons, List.sum_cons, List.length_cons]
      omega
    | succ r =>
      have := ih (r := r) h
      simp only [List.set_cons_succ, List.map_cons, List.sum_cons]
      omega

theorem pendingCount_taken (h : acceptRequest s = some (r, req, taken)) : pendingCount taken + 1 = pendingCount s := by
  obtain ⟨rest, hq, rfl⟩ := acceptRequest_oldest h
  exact sum_length_set hq

/-- Nothing is pending exactly when every queue is empty. -/
theorem pendingCount_eq_zero_iff (s : State) : pendingCount s = 0 ↔ ∀ q ∈ s.requesters, q = [] := by
  rw [pendingCount, List.sum_eq_zero_iff]
  simp only [List.mem_map, forall_exists_index, and_imp, forall_apply_eq_imp_iff₂, List.length_eq_zero_iff]

theorem acceptRequest_of_pending (h : 0 < pendingCount s) : ∃ r req taken, acceptRequest s = some (r, req, taken) := by
  cases ha : acceptRequest s with
  | none => exact absurd ((pendingCount_eq_zero_iff s).mpr ((acceptRequest_eq_none_iff s).mp ha)) h.ne'
  | some a => exact ⟨a.1, a.2.1, a.2.2, rfl⟩

/-! ## What a step does -/

theorem step_of_reset (h : s.resetIn = true) : step s = .next (takeReset s) := if_pos h

theorem step_of_idle (hr : s.resetIn = false) (ha : acceptRequest s = none) : step s = .next s := by
  simp only [step, hr, Bool.false_eq_true, if_false, ha]

/-- What a step that takes a request leaves: the valid bytes and the response are those of `listPerform`, the response
has gone to its requester, and the rest is as the request was taken. -/
structure Answered (r : Nat) (req v : Bytes) (s taken t : State) : Prop where
  valid : validBytes t = .ok (listPerform v req).1
  delivered : t.delivered = s.delivered ++ [(r, (listPerform v req).2)]
  portIdle : t.responsePort = none
  resetIn : t.resetIn = s.resetIn
  requesters : t.requesters = taken.requesters
  turn : t.turn = taken.turn

/-- Over readable valid bytes a step that takes a request answers it. -/
theorem step_answers (hr : s.resetIn = false) (ha : acceptRequest s = some (r, req, taken))
    (hv : validBytes s = .ok v) : ∃ t, step s = .next t ∧ Answered r req v s taken t := by
  obtain ⟨rest, -, htaken⟩ := acceptRequest_oldest ha
  have hv' : validBytes taken = .ok v := by rw [htaken]; exact hv
  obtain ⟨u, hu, hvalid, hport⟩ := perform_eq_listPerform hv' req
  obtain ⟨hreset, hqueues, hdelivered, hturn⟩ := perform_sameOutside hu
  refine ⟨deliverTo r u, ?_, ?_⟩
  · rw [step_of_accept hr ha, hu]
    rfl
  · rw [deliverTo_of_response hport]
    rw [htaken] at hreset hdelivered
    exact ⟨hvalid, congrArg (· ++ _) hdelivered, rfl, hreset, hqueues, hturn⟩

/-- Every step keeps the invariant: the reset input sets it, waiting changes nothing, and a request keeps the buffer's
part and has its response delivered. -/
theorem step_keeps_inv (hinv : Inv s) (h : step s = .next t) : Inv t := by
  rcases step_cases h with ⟨-, rfl⟩ | ⟨-, -, rfl⟩ | ⟨-, r, req, taken, u, ha, hu, rfl⟩
  · exact inv_takeReset s
  · exact hinv
  · obtain ⟨rest, -, htaken⟩ := acceptRequest_oldest ha
    have htaken' : BufferInv taken := by rw [htaken]; exact bufferInv_congr (s := s) rfl rfl hinv.buffer
    exact ⟨bufferInv_congr (deliverTo_rxLen u r) (deliverTo_rxBuf u r) (perform_keeps_bufferInv hu htaken'),
      deliverTo_responsePort u r⟩

/-- With the invariant every step completes. -/
theorem step_completes (hinv : Inv s) : ∃ t, step s = .next t := by
  cases hr : s.resetIn with
  | true => exact ⟨_, step_of_reset hr⟩
  | false =>
    cases ha : acceptRequest s with
    | none => exact ⟨_, step_of_idle hr ha⟩
    | some a =>
      obtain ⟨v, hv, -⟩ := hinv.buffer.partialFrame
      obtain ⟨t, ht, -⟩ := step_answers (r := a.1) (req := a.2.1) (taken := a.2.2) hr ha hv
      exact ⟨t, ht⟩

/-! ## The statements -/

/-- Settles O32, from the three things a step can do. -/
theorem stepKeepsInvariant : Obligations.StepKeepsInvariant := fun _ _ => step_keeps_inv

/-- Settles O49: the step takes the request, performs it by `exec`, and delivers what the port holds. -/
theorem stepRunsDecodedRequest : Obligations.StepRunsDecodedRequest := by
  have hstep : ∀ (s taken : State) (r : Nat) (req : Bytes) (i : Instr), s.resetIn = false →
      acceptRequest s = some (r, req, taken) → decodeRequest req = .ok i → step s = finishFor r (exec i taken) :=
    fun s taken r req i hr ha hd => by rw [step_of_accept hr ha, perform_of_decode hd]
  refine ⟨fun s taken t r req b i hr ha hd hexec hport => ?_, hstep, fun s req rest => acceptRequest_single⟩
  rw [hstep s taken r req i hr ha hd, hexec, ← deliverTo_of_response hport]
  rfl

/-- Settles O50: the choice is always one of the queues that hold a request. -/
theorem takesOldestOfSomeRequester : Obligations.TakesOldestOfSomeRequester :=
  ⟨fun _ _ _ _ => acceptRequest_oldest, acceptRequest_eq_none_iff⟩

/-- Settles O51: one request fewer is pending, and one response more is delivered. -/
theorem eachStepAnswersOneRequest : Obligations.EachStepAnswersOneRequest := by
  intro s hinv hr hpending
  obtain ⟨v, hv, -⟩ := hinv.buffer.partialFrame
  obtain ⟨r, req, taken, ha⟩ := acceptRequest_of_pending hpending
  obtain ⟨t, ht, h⟩ := step_answers hr ha hv
  refine ⟨t, r, (listPerform v req).2, ht, h.delivered, listPerform_response_ne_nil v req, ?_, h.portIdle,
    h.resetIn.trans hr⟩
  rw [pendingCount, h.requesters]
  exact pendingCount_taken ha

/-- Settles O52: with nothing pending no request is taken. -/
theorem idleStepChangesNothing : Obligations.IdleStepChangesNothing := fun s hr h =>
  step_of_idle hr ((acceptRequest_eq_none_iff s).mpr ((pendingCount_eq_zero_iff s).mp h))

/-- Settles O53: the step is the reset, after which no cell is listed. -/
theorem resetInputEmptiesBuffer : Obligations.ResetInputEmptiesBuffer := fun s h =>
  ⟨takeReset s, step_of_reset h, rfl, rfl, rfl, rfl, fun _ hk => if_pos hk, rfl, rfl, rfl⟩

end Sys2Proof.Machine
end

section
/-! PROOFS. Runs of any length: no run stops, and bytes beyond the cursor are never seen (spec/10_state.md R23,
20_memory.md R46, 60_exceptions.md R166, 70_reset_and_hazards.md R183, R193). -/

namespace Sys2Proof.Machine

open Sys2Proof

variable {s s' t t' : State}

/-! ## One step of two states with the same view -/

/-- The same valid bytes are as many, so the cursors are equal. -/
theorem rxLen_eq_of_validBytes {v : Bytes} (h : validBytes s = .ok v) (h' : validBytes s' = .ok v) :
    s'.rxLen = s.rxLen :=
  BitVec.eq_of_toNat_eq ((validBytes_length h').symm.trans (validBytes_length h))

/-- Two states after the reset input differ in nothing of the block. -/
theorem sameView_takeReset (h : SameView s s') : SameView (takeReset s) (takeReset s') where
  rxLen := rfl
  valid := rfl
  responsePort := rfl
  resetIn := rfl
  requesters := h.requesters
  delivered := h.delivered
  turn := h.turn

/-- Two states with the same view take the same request. -/
theorem sameView_acceptRequest (h : SameView s s') : (acceptRequest s' = none ↔ acceptRequest s = none) := by
  rw [acceptRequest_eq_none_iff, acceptRequest_eq_none_iff, h.requesters]

/-- Two states with the same view step to two with the same view: what a step does to the view depends on the view
alone. -/
theorem step_sameView (hinv : Inv s) (h : SameView s s') :
    ∃ t t', step s = .next t ∧ step s' = .next t' ∧ SameView t t' := by
  cases hr : s.resetIn with
  | true => exact ⟨_, _, step_of_reset hr, step_of_reset (h.resetIn.trans hr), sameView_takeReset h⟩
  | false =>
    have hr' := h.resetIn.trans hr
    cases ha : acceptRequest s with
    | none => exact ⟨_, _, step_of_idle hr ha, step_of_idle hr' ((sameView_acceptRequest h).mpr ha), h⟩
    | some a =>
      obtain ⟨r, req, taken⟩ := a
      obtain ⟨v, hv, -⟩ := hinv.buffer.partialFrame
      obtain ⟨t, ht, hans⟩ := step_answers hr ha hv
      obtain ⟨t', ht', hans'⟩ :=
        step_answers hr' (acceptRequest_congr h.requesters h.turn ha) (h.valid.trans hv)
      exact ⟨t, t', ht, ht', {
        rxLen := rxLen_eq_of_validBytes hans.valid hans'.valid
        valid := hans'.valid.trans hans.valid.symm
        responsePort := hans'.portIdle.trans hans.portIdle.symm
        resetIn := hans'.resetIn.trans (h.resetIn.trans hans.resetIn.symm)
        requesters := hans'.requesters.trans hans.requesters.symm
        delivered := by rw [hans'.delivered, hans.delivered, h.delivered]
        turn := hans'.turn.trans hans.turn.symm }⟩

/-! ## The statements -/

/-- Settles O41: the invariant holds of every state of the run, and lets each step complete. -/
theorem runsNeverStop : Obligations.RunsNeverStop := by
  intro s hinv n
  induction n generalizing s with
  | zero => exact ⟨s, run_zero s⟩
  | succ n ih =>
    obtain ⟨t, ht⟩ := step_completes hinv
    rw [run_succ n ht]
    exact ih t (step_keeps_inv hinv ht)

/-- Settles O39: the view is kept step by step. -/
theorem staleBytesUnobservable : Obligations.StaleBytesUnobservable := by
  intro s s' hinv hinv' hview n
  induction n generalizing s s' with
  | zero => exact ⟨s, s', run_zero s, run_zero s', hview⟩
  | succ n ih =>
    obtain ⟨t, t', ht, ht', hview'⟩ := step_sameView hinv hview
    rw [run_succ n ht, run_succ n ht']
    exact ih t t' (step_keeps_inv hinv ht) (step_keeps_inv hinv' ht') hview'

/-- Settles O40: RXRESET's state and the reset state differ in stale bytes alone. -/
theorem rxresetIndistinguishableFromReset : Obligations.RxresetIndistinguishableFromReset := by
  intro s hinv hr
  refine ⟨_, exec_rxreset s, staleBytesUnobservable _ _ ⟨bufferInv_of_empty rfl hinv.cells, rfl⟩ (inv_takeReset s) ?_⟩
  exact ⟨rfl, rfl, rfl, hr.symm, rfl, rfl, rfl⟩

end Sys2Proof.Machine
end

section
/-! PROOFS. The single writer (spec/70_reset_and_hazards.md R187): whatever the schedule, a run answers every pending
request, and the writer's chunks act as on the plain list of valid bytes. -/

namespace Sys2Proof

open Machine

variable {s t : State} {r k : Nat}

/-! ## The other requesters -/

/-- A request that is no FEED and no RXRESET leaves the list as it is. -/
theorem listPerform_of_leavesBuffer {req : Bytes} (h : LeavesBuffer req) (v : Bytes) : (listPerform v req).1 = v := by
  cases hd : decodeRequest req with
  | error e => rw [listPerform_of_error hd]
  | ok i =>
    rw [listPerform_of_decode hd]
    obtain ⟨hfeed, hreset⟩ := h i hd
    cases i with
    | lrc | encode | decode | rxpeek => rfl
    | feed chunk => exact absurd rfl (hfeed chunk)
    | rxreset => exact absurd rfl hreset

theorem responsesTo_append_self (r : Nat) (d : List (Nat × Bytes)) (b : Bytes) :
    responsesTo r (d ++ [(r, b)]) = responsesTo r d ++ [b] := by
  simp [responsesTo, List.filter_append]

theorem responsesTo_append_other (h : k ≠ r) (d : List (Nat × Bytes)) (b : Bytes) :
    responsesTo r (d ++ [(k, b)]) = responsesTo r d := by
  simp [responsesTo, List.filter_append, h]

/-! ## The single writer, step by step -/

/-- The writer presents its chunks as FEEDs, each of which decodes. -/
theorem listPerform_feed {c : Bytes} (h : c.length ≤ Config.len24Max) (v : Bytes) :
    listPerform v (encodeRequest (.feed c)) = listFeed v c :=
  listPerform_of_decode (decodeOfEncode (.feed c) (decide_eq_true h)) v

/-- The request taken from the writer is its first chunk's FEED. -/
theorem chunks_eq_cons {chunks : List Bytes} {req : Bytes} {rest : List Bytes} (hw : SingleWriter r chunks s)
    (hq : s.requesters[r]? = some (req :: rest)) :
    ∃ c cs, chunks = c :: cs ∧ req = encodeRequest (.feed c) ∧ rest = cs.map fun c => encodeRequest (.feed c) := by
  have hmap := Option.some.inj (hw.feeds.symm.trans hq)
  obtain ⟨c, cs, hchunks, hreq, hrest⟩ := List.map_eq_cons_iff.mp hmap
  exact ⟨c, cs, hchunks, hreq.symm, hrest.symm⟩

/-- With its first FEED taken the writer presents the chunks that remain. -/
theorem singleWriter_after_feed {c : Bytes} {cs : List Bytes} (hw : SingleWriter r (c :: cs) s)
    (hr : t.resetIn = s.resetIn)
    (hq : t.requesters = s.requesters.set r (cs.map fun c => encodeRequest (.feed c))) : SingleWriter r cs t where
  resetReleased := hr.trans hw.resetReleased
  feeds := by
    obtain ⟨hlt, -⟩ := List.getElem?_eq_some_iff.mp hw.feeds
    rw [hq, List.getElem?_set_self hlt]
  sizes c' hc' := hw.sizes c' (List.mem_cons_of_mem c hc')
  others j q hj hqj := by
    rw [hq, List.getElem?_set_ne hj.symm] at hqj
    exact hw.others j q hj hqj

/-- With another requester's request taken the writer presents the same chunks. -/
theorem singleWriter_after_other {chunks : List Bytes} {req : Bytes} {rest : List Bytes} (hw : SingleWriter r chunks s)
    (hk : k ≠ r) (hold : s.requesters[k]? = some (req :: rest)) (hr : t.resetIn = s.resetIn)
    (hq : t.requesters = s.requesters.set k rest) : SingleWriter r chunks t where
  resetReleased := hr.trans hw.resetReleased
  feeds := by rw [hq, List.getElem?_set_ne hk, hw.feeds]
  sizes := hw.sizes
  others j q hj hqj p hp := by
    by_cases hjk : j = k
    · subst hjk
      obtain ⟨hlt, -⟩ := List.getElem?_eq_some_iff.mp hold
      rw [hq, List.getElem?_set_self hlt] at hqj
      cases hqj
      exact hw.others j _ hj hold p (List.mem_cons_of_mem req hp)
    · rw [hq, List.getElem?_set_ne (Ne.symm hjk)] at hqj
      exact hw.others j q hj hqj p hp

/-- With nothing pending the writer has no chunk left. -/
theorem chunks_eq_nil {chunks : List Bytes} (hw : SingleWriter r chunks s) (h : pendingCount s = 0) : chunks = [] :=
  List.map_eq_nil_iff.mp ((pendingCount_eq_zero_iff s).mp h _ (List.mem_of_getElem? hw.feeds))

/-- The invariant of a run with a single writer: what its chunks still to come make of the valid bytes, and what it has
received with the responses to come, stay the same from step to step. -/
structure WriterRun (r : Nat) (final : Bytes) (responses : List Bytes) (s : State) : Prop where
  inv : Inv s
  ahead : ∃ v chunks, SingleWriter r chunks s ∧ validBytes s = .ok v ∧ (listFeeds v chunks).1 = final
    ∧ responsesTo r s.delivered ++ (listFeeds v chunks).2 = responses

/-- A step takes the writer's first chunk, which moves one response from those to come to those received, or another
requester's request, which changes neither. -/
theorem step_keeps_writerRun {final : Bytes} {responses : List Bytes} (h : WriterRun r final responses s)
    (hpending : 0 < pendingCount s) :
    ∃ t, step s = .next t ∧ WriterRun r final responses t ∧ pendingCount t + 1 = pendingCount s := by
  obtain ⟨v, chunks, hw, hv, hfinal, hresponses⟩ := h.ahead
  obtain ⟨k, req, taken, ha⟩ := acceptRequest_of_pending hpending
  obtain ⟨t, ht, hans⟩ := step_answers hw.resetReleased ha hv
  obtain ⟨rest, hq, htaken⟩ := acceptRequest_oldest ha
  have hqueues : t.requesters = s.requesters.set k rest := hans.requesters.trans (congrArg State.requesters htaken)
  refine ⟨t, ht, ⟨step_keeps_inv h.inv ht, ?_⟩, ?_⟩
  · by_cases hk : k = r
    · subst hk
      obtain ⟨c, cs, rfl, rfl, rfl⟩ := chunks_eq_cons hw hq
      have hlist := listPerform_feed (hw.sizes c List.mem_cons_self) v
      refine ⟨_, cs, singleWriter_after_feed hw hans.resetIn hqueues, hans.valid, ?_, ?_⟩
      · rw [hlist]
        exact hfinal
      · rw [hans.delivered, responsesTo_append_self, hlist, List.append_assoc]
        exact hresponses
    · have hleaves := listPerform_of_leavesBuffer (hw.others k _ hk hq req List.mem_cons_self) v
      refine ⟨v, chunks, singleWriter_after_other hw hk hq hans.resetIn hqueues, hleaves ▸ hans.valid, hfinal, ?_⟩
      rw [hans.delivered, responsesTo_append_other hk]
      exact hresponses
  · rw [pendingCount, hans.requesters]
    exact pendingCount_taken ha

/-! ## The run -/

/-- A property that each step keeps while it takes a request holds once all pending requests are answered. -/
theorem run_pendingCount {P : State → Prop}
    (hstep : ∀ s, P s → 0 < pendingCount s → ∃ t, step s = .next t ∧ P t ∧ pendingCount t + 1 = pendingCount s)
    (h : P s) : ∃ t, core.run (pendingCount s) s = .next t ∧ P t ∧ pendingCount t = 0 := by
  induction hn : pendingCount s generalizing s with
  | zero => exact ⟨s, run_zero s, h, hn⟩
  | succ n ih =>
    obtain ⟨t, ht, hP, hcount⟩ := hstep s h (by omega)
    rw [run_succ n ht]
    exact ih hP (by omega)

/-- Settles O36: the invariant of the run, read at its start and at its end. -/
theorem interleavedFeedsRefineByteList : Obligations.InterleavedFeedsRefineByteList := by
  intro s r v chunks hinv hw hv
  have hstart : WriterRun r (listFeeds v chunks).1 (responsesTo r s.delivered ++ (listFeeds v chunks).2) s :=
    ⟨hinv, v, chunks, hw, hv, rfl, rfl⟩
  obtain ⟨t, ht, hend, hcount⟩ := run_pendingCount (fun _ => step_keeps_writerRun) hstart
  obtain ⟨w, left, hw', hvalid, hfinal, hresponses⟩ := hend.ahead
  obtain rfl := chunks_eq_nil hw' hcount
  exact ⟨t, ht, hend.inv, hcount, hvalid.trans (congrArg Except.ok hfinal),
    (List.append_nil _).symm.trans hresponses⟩

end Sys2Proof
end

section
/-! PROOFS. The split and garbage properties (spec/41_reassembler.md R141, R143): chunks over the plain list, and then
the runs of a single writer. -/

namespace Sys2Proof

open Machine

variable {s : State} {r : Nat}

/-! ## Chunks over the plain list -/

/-- FEED of a chunk that fits behind the list (R133, R134): no overflow. -/
theorem listFeed_of_fits {v chunk : Bytes} (h : (v ++ chunk).length ≤ 512) :
    listFeed v chunk = (listDispose (decodeFrame (v ++ chunk)) (v ++ chunk),
      feedResponse (decodeCode (decodeFrame (v ++ chunk))) false 0 (decodeBody (decodeFrame (v ++ chunk)))) := by
  rw [List.length_append] at h
  have hfits : decide (512 < v.length + chunk.length) = false := decide_eq_false (Nat.not_lt.mpr h)
  rw [listFeed_of_short v (by omega), listKept, hfits]
  rfl

theorem listFeeds_append (v : Bytes) (a b : List Bytes) :
    listFeeds v (a ++ b)
      = ((listFeeds (listFeeds v a).1 b).1, (listFeeds v a).2 ++ (listFeeds (listFeeds v a).1 b).2) := by
  induction a generalizing v with
  | nil => rfl
  | cons c cs ih => simp only [List.cons_append, listFeeds, ih]

/-- While whatever the bytes begin with decodes INCOMPLETE, chunks gather and each is answered INCOMPLETE. -/
theorem listFeeds_of_incomplete {v : Bytes} {chunks : List Bytes} (hfits : (v ++ chunks.flatten).length ≤ 512)
    (hbegin : ∀ u, u <+: v ++ chunks.flatten → decodeFrame u = .incomplete) :
    listFeeds v chunks = (v ++ chunks.flatten, List.replicate chunks.length [0x02, 0x00, 0x00, 0x00]) := by
  induction chunks generalizing v with
  | nil => rw [List.flatten_nil, List.append_nil]; rfl
  | cons c cs ih =>
    rw [List.flatten_cons, ← List.append_assoc] at hfits hbegin ⊢
    have hc : listFeed v c = (v ++ c, [0x02, 0x00, 0x00, 0x00]) := by
      rw [List.length_append] at hfits
      rw [listFeed_of_fits (by omega), hbegin (v ++ c) (List.prefix_append _ _)]
      rfl
    rw [listFeeds, hc, ih hfits hbegin]
    rfl

/-- Chunks that gather, one that ends it, and empty chunks behind: one answer other than INCOMPLETE. -/
theorem listFeeds_ended {last : Bytes} {before after : List Bytes}
    (hfits : (before.flatten ++ last).length ≤ 512)
    (hbegin : ∀ u, u <+: before.flatten → decodeFrame u = .incomplete)
    (hend : decodeFrame (before.flatten ++ last) ≠ .incomplete) (hafter : ∀ c ∈ after, c = []) :
    listFeeds [] (before ++ last :: after) = ([],
      List.replicate before.length [0x02, 0x00, 0x00, 0x00]
        ++ [feedResponse (decodeCode (decodeFrame (before.flatten ++ last))) false 0
            (decodeBody (decodeFrame (before.flatten ++ last)))]
        ++ List.replicate after.length [0x02, 0x00, 0x00, 0x00]) := by
  have hbefore : listFeeds [] before = (before.flatten, List.replicate before.length [0x02, 0x00, 0x00, 0x00]) :=
    listFeeds_of_incomplete (v := []) (by rw [List.length_append] at hfits; exact (Nat.le_add_right _ _).trans hfits)
      hbegin
  have hempty : after.flatten = [] := List.flatten_eq_nil_iff.mpr hafter
  have hrest : listFeeds [] after = ([], List.replicate after.length [0x02, 0x00, 0x00, 0x00]) := by
    have := listFeeds_of_incomplete (v := []) (chunks := after) (by rw [hempty]; decide) fun u hu => by
      rw [hempty] at hu
      rw [List.prefix_nil.mp hu]
      rfl
    rwa [hempty] at this
  have hdispose : listDispose (decodeFrame (before.flatten ++ last)) (before.flatten ++ last) = [] := by
    cases hr : decodeFrame (before.flatten ++ last) with
    | incomplete => exact absurd hr hend
    | invalid why => rfl
    | frame f => rfl
  rw [listFeeds_append, hbefore, listFeeds, listFeed_of_fits hfits, hdispose, hrest, List.append_assoc]
  rfl

/-- What a well-formed frame begins with, short of the whole, is short of the header or of the claimed length
(R104). -/
theorem decodeFrame_of_partial_frame {f u : Bytes} (hf : wellFormedFrame f = true) (hu : u <+: f)
    (hlt : u.length < f.length) : decodeFrame u = .incomplete := by
  obtain ⟨hlen, hsof, -⟩ := (wellFormedFrame_iff f).mp hf
  obtain ⟨x, rfl⟩ := hu
  rcases Nat.lt_or_ge u.length 9 with hshort | hhdr
  · exact decodeFrame_of_short hshort
  · rw [byteAt_append_left (by omega)] at hsof
    rw [lengthField_append x (by omega)] at hlen
    exact decodeFrame_of_claimed hsof (by omega)

/-- The FEED response that delivers a well-formed frame, by the frame's bytes (R74, R75). -/
theorem feedResponse_of_wellFormed {f : Bytes} (hf : wellFormedFrame f = true) :
    feedResponse (decodeCode (decodeFrame f)) false 0 (decodeBody (decodeFrame f))
      = [0x01, 0x00, 0x00, 0x00] ++ slice f 1 8 ++ slice f 9 (f.length - 1) := by
  obtain ⟨hlen, -⟩ := (wellFormedFrame_iff f).mp hf
  rw [decodeFrame_of_wellFormed hf, decodeBody, frameBody_eq_slices (by omega),
    show f.length - 1 = 9 + lengthField f by omega]
  rfl

/-! ## The runs -/

/-- A single writer's run from the empty buffer to the empty buffer. -/
theorem run_of_listFeeds {chunks responses : List Bytes} (hinv : Inv s) (hempty : s.rxLen = 0)
    (hw : SingleWriter r chunks s) (hlist : listFeeds [] chunks = ([], responses)) :
    ∃ t, core.run (pendingCount s) s = .next t ∧ pendingCount t = 0 ∧ t.rxLen = 0 ∧ Inv t
      ∧ responsesTo r t.delivered = responsesTo r s.delivered ++ responses := by
  obtain ⟨t, ht, hinv', hcount, hvalid, hresponses⟩ :=
    interleavedFeedsRefineByteList s r [] chunks hinv hw (validBytes_of_rxLen_zero hempty)
  rw [hlist] at hvalid hresponses
  exact ⟨t, ht, hcount, BitVec.eq_of_toNat_eq (validBytes_length hvalid).symm, hinv', hresponses⟩

/-- Settles O37: whatever is short of the frame is INCOMPLETE, and the whole is delivered. -/
theorem splitFrameIsDeliveredOnce : Obligations.SplitFrameIsDeliveredOnce := by
  intro s r f last before after hf hfits hinv hempty hsplit hlast hafter hw
  have hshorter : before.flatten.length < f.length := by
    rw [← hsplit, List.length_append]
    exact Nat.lt_add_of_pos_right (List.length_pos_iff.mpr hlast)
  have hbegin : ∀ u, u <+: before.flatten → decodeFrame u = .incomplete := fun u hu =>
    decodeFrame_of_partial_frame hf (hu.trans ⟨last, hsplit⟩) (hu.length_le.trans_lt hshorter)
  have hlist := listFeeds_ended (before := before) (last := last) (after := after) (by rwa [hsplit]) hbegin
    (by rw [hsplit, decodeFrame_of_wellFormed hf]; nofun) hafter
  rw [hsplit, feedResponse_of_wellFormed hf] at hlist
  exact run_of_listFeeds hinv hempty hw hlist

/-- Settles O38: fewer than 9 bytes are INCOMPLETE whatever they are, and with 9 the SOF is tested. -/
theorem garbageIsReportedOnce : Obligations.GarbageIsReportedOnce := by
  intro s r last before hinv hempty hshort hlong hfits hsof hw
  have hbad := decodeFrame_of_badSof hlong hsof
  have hlist := listFeeds_ended (before := before) (last := last) (after := []) hfits
    (fun u hu => decodeFrame_of_short (hu.length_le.trans_lt hshort)) (by rw [hbad]; nofun) (by nofun)
  rw [hbad, List.length_nil, List.replicate_zero, List.append_nil] at hlist
  exact run_of_listFeeds hinv hempty hw hlist

end Sys2Proof
end

section
/-! PROOFS. Where reading the buffer stops (the model's own faults; 10_state.md R21, R23): at the first index that does
not read. -/

namespace Sys2Proof.Machine

open Sys2Proof

variable {s : State} {m : Memory} {k : Nat} {e : Fault}

/-- `MemRead` stops as the first of its bytes that does not read. -/
theorem memRead_eq_error {i n : Nat} (hkn : k < n) (hbefore : ∀ j, j < k → ∃ b, readByte m (i + j) = .ok b)
    (hk : readByte m (i + k) = .error e) : memRead m i n = .error e := by
  induction n generalizing i k with
  | zero => exact absurd hkn (Nat.not_lt_zero k)
  | succ n ih =>
    cases k with
    | zero =>
      rw [Nat.add_zero] at hk
      simp only [memRead, hk]
    | succ k =>
      obtain ⟨b, hb⟩ := hbefore 0 (Nat.succ_pos k)
      rw [Nat.add_zero] at hb
      have hrest : memRead m (i + 1) n = .error e := by
        refine ih (Nat.lt_of_succ_lt_succ hkn) (fun j hj => ?_) ?_
        · rw [Nat.add_right_comm, Nat.add_assoc]
          exact hbefore (j + 1) (Nat.succ_lt_succ hj)
        · rwa [Nat.add_right_comm, Nat.add_assoc]
      simp only [memRead, hb, hrest]

theorem validBytes_eq_error (hk : k < s.rxLen.toNat) (hbefore : ∀ j, j < k → ∃ b, readByte s.rxBuf j = .ok b)
    (he : readByte s.rxBuf k = .error e) : validBytes s = .error e :=
  memRead_eq_error hk (fun j hj => by rw [Nat.zero_add]; exact hbefore j hj) (by rwa [Nat.zero_add])

theorem readByte_of_unwritten (hk : k < 512) (h : Memory.find m k = none) : readByte m k = .error (.unwrittenByte k) :=
  (if_pos hk).trans (by rw [h])

/-- A chunk that fits is appended behind the valid bytes, all of which read as before. -/
theorem readByte_appendChunk_before (chunk : Bytes) (hk : k < s.rxLen.toNat) :
    readByte (appendChunk chunk s).rxBuf k = readByte s.rxBuf k :=
  readByte_memWrite_outside _ _ _ (Or.inl hk)

/-- The cursor behind an appended chunk that fits does not wrap (R133). -/
theorem toNat_rxLen_appendChunk {chunk : Bytes} (h : s.rxLen.toNat + chunk.length ≤ 512) :
    (appendChunk chunk s).rxLen.toNat = s.rxLen.toNat + chunk.length := by
  rw [appendChunk_rxLen, BitVec.toNat_ofNat]
  omega

/-- Settles O30: the first index that does not read is 512, or the unwritten one, which FEED leaves unwritten. -/
theorem bufferReadStops : Obligations.BufferReadStops := by
  refine ⟨fun s hlen hall => ?_, fun s k hk hcap hall hnone => ⟨?_, fun chunk hfits => ?_⟩⟩
  · exact execRxpeek_fault (validBytes_eq_error hlen hall (if_neg (lt_irrefl _)))
  · exact execRxpeek_fault (validBytes_eq_error hk hall (readByte_of_unwritten hcap hnone))
  · refine execFeed_fault (validBytes_eq_error (k := k) ?_ (fun j hj => ?_) ?_) hfits
    · rw [toNat_rxLen_appendChunk hfits]
      omega
    · rw [readByte_appendChunk_before chunk (hj.trans hk)]
      exact hall j hj
    · rw [readByte_appendChunk_before chunk hk]
      exact readByte_of_unwritten hcap hnone

end Sys2Proof.Machine
end

section
/-! PROOFS. FEED's cases (spec/41_reassembler.md R130 to R138, R142, R145) and the buffer between requests
(10_state.md R25). -/

namespace Sys2Proof.Machine

open Sys2Proof

variable {s t : State} {v chunk : Bytes}

/-! ## Bytes that are held, and frames that are delivered -/

/-- FEED of a chunk that fits and leaves the bytes INCOMPLETE keeps them all (R134). -/
theorem exec_feed_of_incomplete (hv : validBytes s = .ok v) (hfits : (v ++ chunk).length ≤ 512)
    (h : decodeFrame (v ++ chunk) = .incomplete) :
    ∃ t, exec (.feed chunk) s = .next t ∧ t.responsePort = some [0x02, 0x00, 0x00, 0x00]
      ∧ validBytes t = .ok (v ++ chunk) := by
  obtain ⟨t, ht, hvalid, hport⟩ := exec_feed_eq_listFeed hv chunk
  rw [listFeed_of_fits hfits, h] at hvalid hport
  exact ⟨t, ht, hport, hvalid⟩

/-- FEED of nothing changes nothing (R138). -/
theorem appendChunk_nil (s : State) : appendChunk [] s = s := by
  rw [appendChunk, memWrite, List.length_nil, Nat.add_zero, BitVec.ofNat_toNat, BitVec.setWidth_eq]

theorem exec_feed_nil (hinv : BufferInv s) :
    exec (.feed []) s = .next { s with responsePort := some [0x02, 0x00, 0x00, 0x00] } := by
  obtain ⟨-, v, hv, hpartial⟩ := (bufferInv_iff s).mp hinv
  have hexec := execFeed_fits (chunk := []) hv (validBytes_length_le hv)
  rw [List.append_nil, hpartial, appendChunk_nil] at hexec
  exact hexec

/-- Settles O26: the header claims more than is there. -/
theorem feedWaitsForClaimedLength : Obligations.FeedWaitsForClaimedLength := by
  intro s v chunk hv hfits _ hsof hclaimed
  exact exec_feed_of_incomplete hv (List.length_append.le.trans hfits) (decodeFrame_of_claimed hsof hclaimed)

/-- Settles O34: what INCOMPLETE says of 9 bytes or more, and that fewer are INCOMPLETE whatever they are. -/
theorem bufferFactsBetweenRequests : Obligations.BufferFactsBetweenRequests := by
  refine ⟨fun s v hinv hv hlong => ?_, fun s v hinv hempty hshort => ?_⟩
  · obtain ⟨-, w, hw, hpartial⟩ := (bufferInv_iff s).mp hinv
    obtain rfl : w = v := Except.ok.inj (hw.symm.trans hv)
    rw [← validBytes_length hv] at hlong ⊢
    rcases decodeFrame_eq_incomplete_iff.mp hpartial with hshort | hclaimed
    · omega
    · exact hclaimed
  · obtain ⟨t, ht, -, hvalid⟩ :=
      exec_feed_of_incomplete (validBytes_of_rxLen_zero hempty) (by rw [List.nil_append]; omega)
        (decodeFrame_of_short hshort)
    exact ⟨t, ht, exec_keeps_bufferInv ht hinv, hvalid, (validBytes_length hvalid).symm⟩

/-- The FRAME body of a built frame (R74, R103). -/
theorem decodeBody_build (command : Half) {p : Bytes} (h : p.length ≤ 65535) :
    decodeBody (decodeFrame (build command 0 p))
      = [0xEF] ++ u16Bytes command.toNat ++ [0x00, 0x00] ++ u16Bytes p.length ++ p := by
  have hlength : (BitVec.ofNat 16 p.length).toNat = p.length := (frameRoundTrip command p h).2
  have hstatus : u16Bytes (0 : Half).toNat = [0x00, 0x00] := by decide
  simp only [decodeFrame_build command 0 h, decodeBody, frameBody, hlength, hstatus]

/-- Settles O27: the frame fits the buffer and decodes to what it was built from. -/
theorem encodedFrameIsReceived : Obligations.EncodedFrameIsReceived := by
  intro s command p hempty hp
  have hsize := length_build command 0 p
  obtain ⟨t, ht, hvalid, hport⟩ := exec_feed_eq_listFeed (validBytes_of_rxLen_zero hempty) (build command 0 p)
  rw [listFeed_of_fits (by rw [List.nil_append]; omega), List.nil_append, decodeBody_build command (by omega),
    decodeFrame_build command 0 (by omega)] at hport
  rw [listFeed_of_fits (by rw [List.nil_append]; omega), List.nil_append, decodeFrame_build command 0 (by omega)]
    at hvalid
  exact ⟨t, ht, BitVec.eq_of_toNat_eq (validBytes_length hvalid).symm, hport⟩

/-! ## The length field of a delivered frame -/

/-- A FEED response that begins with FRAME reports the length field of the decoded bytes, which hold the whole
frame. -/
theorem feedResponse_frame_length {w rest : Bytes} {ovf : Bool} {dropped : Nat} (hlen : w.length ≤ 512)
    (h : feedResponse (decodeCode (decodeFrame w)) ovf dropped (decodeBody (decodeFrame w)) = 0x01 :: rest) :
    be16 (byteAt rest 8) (byteAt rest 9) ≤ 502 ∧ rest.length = 10 + be16 (byteAt rest 8) (byteAt rest 9) := by
  obtain ⟨hcode, hrest⟩ := List.cons.inj h
  cases hr : decodeFrame w with
  | incomplete => rw [hr] at hcode; exact absurd hcode (by decide)
  | invalid why => rw [hr] at hcode; cases why <;> exact absurd hcode (by decide)
  | frame f =>
    obtain ⟨hwhole, rfl⟩ := decodeFrame_eq_frame hr
    have hlayout : [flagsByte ovf] ++ u16Bytes dropped ++ frameBody (frameFields w) = rest := by
      rw [hr] at hrest
      exact hrest
    rw [frameBody_frameFields] at hlayout
    have hfield : be16 (byteAt rest 8) (byteAt rest 9) = lengthField w := by rw [← hlayout]; rfl
    have hsize : rest.length = 10 + (slice w 9 (9 + lengthField w)).length := by
      rw [← hlayout]
      simp only [List.length_append, List.length_cons, List.length_nil, length_u16Bytes]
      omega
    rw [length_slice (by omega), Nat.add_sub_cancel_left] at hsize
    rw [hfield]
    exact ⟨by omega, hsize⟩

/-- Settles O25: FEED decodes at most 512 bytes, of which the frame has 10 beside its payload. -/
theorem feedNeverDeliversOversizeFrame : Obligations.FeedNeverDeliversOversizeFrame := by
  intro s t chunk rest h hport
  rcases execFeed_next h with ⟨-, rfl⟩ | ⟨hshort, -, rfl⟩ | ⟨-, w, hw, rfl⟩
  · exact absurd (List.cons.inj (Option.some.inj hport)).1 (by decide)
  · exact feedResponse_frame_length hshort (Option.some.inj hport)
  · exact feedResponse_frame_length (validBytes_length_le hw) (Option.some.inj hport)

/-! ## FEED's corner cases (R138) -/

/-- A chunk that fills the empty buffer exactly: no overflow. -/
theorem exec_feed_exactly_full (hempty : s.rxLen = 0) (hlen : chunk.length = 512) :
    ∃ t, exec (.feed chunk) s = .next t
      ∧ t.responsePort = some ([codeByte (decodeCode (decodeFrame chunk)), 0x00, 0x00, 0x00]
          ++ decodeBody (decodeFrame chunk))
      ∧ (if decodeFrame chunk = .incomplete then t.rxLen.toNat = 512 else t.rxLen = 0) := by
  have hzero : s.rxLen.toNat = 0 := congrArg BitVec.toNat hempty
  refine ⟨_, execFeed_fits (validBytes_of_rxLen_zero hempty) (by simp [hlen]), rfl, ?_⟩
  rw [List.nil_append]
  rcases dispose_cases (decodeFrame chunk) (appendChunk chunk s) with ⟨hr, hkept⟩ | ⟨hr, hemptied⟩
  · rw [if_pos hr, hkept, respond_rxLen, toNat_rxLen_appendChunk (by omega)]
    omega
  · rw [if_neg hr, hemptied]
    rfl

/-- One valid byte, 0x11. -/
def oneHeldByte : State := { State.reset with rxLen := 1, rxBuf := [(0, 0x11)] }

theorem bufferInv_oneHeldByte : BufferInv oneHeldByte := (bufferInv_iff _).mpr ⟨rfl, [0x11], rfl, rfl⟩

/-- A frame of 10 bytes and 502 bytes behind it: too many for the one byte held, and delivered alone. -/
theorem exec_feed_frame_with_overflow {x : Bytes} (hx : x.length = 502) :
    ∃ t rest, exec (.feed (build 0 0 [] ++ x)) oneHeldByte = .next t
      ∧ t.responsePort = some (0x01 :: 0x01 :: rest) := by
  have hsize : (build 0 0 [] ++ x).length = 512 := by rw [List.length_append, length_build, hx, List.length_nil]
  have hcursor : oneHeldByte.rxLen.toNat = 1 := rfl
  have hframe : decodeFrame (build 0 0 [] ++ x) = .frame _ :=
    (decodeFrame_append x (by decide)).trans (decodeFrame_build 0 0 (Nat.zero_le _))
  have hexec := execFeed_overflows (s := oneHeldByte) (by omega) hsize.le
  rw [hframe] at hexec
  exact ⟨_, _, hexec, rfl⟩

/-- Settles O24: FRAME with OVF is witnessed by a frame with zeros behind it, fed to a buffer that holds one byte. -/
theorem feedCornerCases : Obligations.FeedCornerCases := by
  refine ⟨fun s => exec_feed_nil, fun s chunk => exec_feed_exactly_full, fun s chunk hheld hlen => ?_,
    fun s chunk hlen => ?_, ?_⟩
  · have hpos : s.rxLen.toNat ≠ 0 := fun h => hheld (BitVec.eq_of_toNat_eq h)
    exact ⟨_, execFeed_overflows (by omega) hlen.le, rfl⟩
  · exact ⟨_, _, execFeed_chunkTooLong (by omega), rfl⟩
  · obtain ⟨t, rest, hexec, hport⟩ := exec_feed_frame_with_overflow List.length_replicate
    exact ⟨oneHeldByte, t, build 0 0 [] ++ List.replicate 502 0x00, rest, bufferInv_oneHeldByte, rfl, hexec, hport⟩

end Sys2Proof.Machine
end

section
/-! PROOFS. The table of result codes (spec/60_exceptions.md R160): the code and the state effect of each operation. -/

namespace Sys2Proof.Machine

open Sys2Proof

/-- The codes of the decoder's outcomes. -/
theorem codeByte_decodeCode_mem (r : DecodeResult) :
    codeByte (decodeCode r) ∈ ([0x01, 0x02, 0x10, 0x11, 0x12] : Bytes) := by
  cases r with
  | incomplete => decide
  | invalid why => cases why <;> decide
  | frame f => exact List.mem_cons_self

/-- What FEED answers and leaves: any code but INCOMPLETE with the buffer empty, or INCOMPLETE with the chunk kept
behind the bytes that the cursor `start` counts (R134). -/
def FeedEffect (start : Nat) (chunk : Bytes) (t : State) : Prop :=
  ∃ c r, t.responsePort = some (c :: r)
    ∧ ((c ∈ ([0x01, 0x10, 0x11, 0x12, 0x21] : Bytes) ∧ t.rxLen = 0)
      ∨ (c = 0x02 ∧ t.rxLen.toNat = start + chunk.length))

/-- The append, decode and disposition steps have FEED's effect. -/
theorem feedEffect_decoded (r : DecodeResult) (ovf : Bool) (dropped : Nat) {chunk : Bytes} {s : State}
    (h : s.rxLen.toNat + chunk.length ≤ 512) :
    FeedEffect s.rxLen.toNat chunk
      (respond (feedResponse (decodeCode r) ovf dropped (decodeBody r)) (dispose r (appendChunk chunk s))) := by
  refine ⟨codeByte (decodeCode r), _, rfl, ?_⟩
  cases r with
  | incomplete => exact .inr ⟨rfl, toNat_rxLen_appendChunk h⟩
  | invalid why => exact .inl ⟨by cases why <;> decide, rfl⟩
  | frame f => exact .inl ⟨List.mem_cons_self, rfl⟩

/-- In every state from which FEED answers it has its effect, from `feedStart` on. -/
theorem feedEffect_of_exec {chunk : Bytes} {s t : State} (h : exec (.feed chunk) s = .next t) :
    FeedEffect (feedStart s chunk) chunk t := by
  rcases execFeed_next h with ⟨-, rfl⟩ | ⟨hshort, hover, rfl⟩ | ⟨hfits, w, -, rfl⟩
  · exact ⟨0x21, _, rfl, .inl ⟨by decide, rfl⟩⟩
  · rw [feedStart, overflowStep_of_overflow hover]
    exact feedEffect_decoded _ _ _ (by simpa using hshort)
  · rw [feedStart, overflowStep_of_fits hfits]
    exact feedEffect_decoded _ _ _ hfits

/-- Settles O35: one clause per operation, and the two answers to requests that are none. -/
theorem resultCodesAndEffects : Obligations.ResultCodesAndEffects := by
  refine ⟨fun d s t h => ?_, fun c p s t h => ?_, fun d s t h => ?_, fun d s t => feedEffect_of_exec, fun s t h => ?_,
    fun s t h => ?_, fun req s h => perform_of_error h s, fun req s h => perform_of_error h s⟩
  · cases h
    exact ⟨⟨_, rfl⟩, rfl, rfl⟩
  · rcases Nat.lt_or_ge 65535 p.length with hlong | hfits
    · rw [exec_encode_of_tooLong s c hlong] at h
      cases h
      exact ⟨.inr rfl, rfl, rfl⟩
    · rw [exec_encode_of_fits s c hfits] at h
      cases h
      exact ⟨.inl ⟨_, rfl⟩, rfl, rfl⟩
  · cases h
    exact ⟨⟨_, _, rfl, codeByte_decodeCode_mem _⟩, rfl, rfl⟩
  · cases h
    exact ⟨_, rfl⟩
  · obtain ⟨v, -, rfl⟩ := execRxpeek_next h
    exact ⟨⟨_, rfl⟩, rfl, rfl⟩

end Sys2Proof.Machine
end
